-- ==== Sys2Proof/Word.lean ====
section
/-! DEFINITION. The widths of the engine: bytes, 64-bit words, command words and blocks. -/

namespace Sys2Proof

/-- A byte, an unsigned integer 0..255 (R8). -/
abbrev Byte := BitVec 8

/-- A 64-bit word: a word of a block, or a step value (R10, R142). -/
abbrev Word64 := BitVec 64

/-- A command word (R71). -/
abbrev CmdWord := BitVec 32

/-- A block of 64 bytes (R9), held as its 512-bit integer `int512` (R10, R52): byte 0 is bits 7..0, the least
significant byte, and byte `i` is bits `8i+7 .. 8i`. DEDUCED: the spec gives a block both as 64 bytes and as a
512-bit integer, and R52 says that the two views agree (log 9; safe). -/
abbrev Block := BitVec 512

end Sys2Proof
end

