-- ==== Sys2Proof/Syntax.lean ====
section
/-! DEFINITION. The engine's instructions: its four commands (R72), one constructor per row of opcode_table.json. -/

namespace Sys2Proof

/-- A command of the engine, its operand as wide as its field of the command word (R71, R73 to R75). -/
inductive Instr where
  /-- INIT ds (R151): `ds` is the whole 16-bit `IMM`, legal or not (R73). -/
  | init (ds : BitVec 16)
  /-- UPDATE v (R152): `v` is the message byte (R74). -/
  | update (v : Byte)
  /-- DIGEST (R154). -/
  | digest
  /-- HEXDIGEST (R156). -/
  | hexdigest
  deriving DecidableEq, Repr

end Sys2Proof
end

