-- ==== Sys2Proof/Decode.lean ====
section
/-! DEFINITION. The command word (R71), its total decoder (R76, R77) and its encoder (R72 to R75). -/

namespace Sys2Proof

/-- `OP = W[31:24]` (R71). -/
def opField (w : CmdWord) : BitVec 8 := w.extractLsb' 24 8

/-- `RSV = W[23:16]` (R71). -/
def rsvField (w : CmdWord) : BitVec 8 := w.extractLsb' 16 8

/-- `IMM = W[15:0]` (R71). -/
def immField (w : CmdWord) : BitVec 16 := w.extractLsb' 0 16

/-- `IMM[15:8]` (R71). -/
def immHigh (w : CmdWord) : BitVec 8 := w.extractLsb' 8 8

/-- `IMM[7:0]` (R71). -/
def immLow (w : CmdWord) : BitVec 8 := w.extractLsb' 0 8

/-- Why a word is none of the four commands (R77). Each of these raises IllegalCommand. -/
inductive IllegalWord where
  /-- `RSV` is not 0. -/
  | reservedBits
  /-- `OP` is 0x00 or 0x05 to 0xFF. -/
  | unassignedOpcode
  /-- an UPDATE with `IMM[15:8]` not 0. -/
  | updateHighByte
  /-- a DIGEST with `IMM` not 0. -/
  | digestOperand
  /-- a HEXDIGEST with `IMM` not 0. -/
  | hexdigestOperand
  deriving DecidableEq, Repr

/-- `decode` of R76, its tests in the order of that rule. It reads the word only: no mode changes it (R86). -/
def decode (w : CmdWord) : Except IllegalWord Instr :=
  if rsvField w ≠ 0 then .error .reservedBits
  else if opField w = 0x01 then .ok (.init (immField w))
  else if opField w = 0x02 then
    if immHigh w ≠ 0 then .error .updateHighByte else .ok (.update (immLow w))
  else if opField w = 0x03 then
    if immField w ≠ 0 then .error .digestOperand else .ok .digest
  else if opField w = 0x04 then
    if immField w ≠ 0 then .error .hexdigestOperand else .ok .hexdigest
  else .error .unassignedOpcode

/-- A command word put together from its three fields (R71). -/
def cmdWord (op rsv : BitVec 8) (imm : BitVec 16) : CmdWord :=
  (op.setWidth 32 <<< 24) ||| (rsv.setWidth 32 <<< 16) ||| imm.setWidth 32

/-- The word of a command (R72 to R75, R84). -/
def encode : Instr → CmdWord
  | .init ds => cmdWord 0x01 0 ds
  | .update v => cmdWord 0x02 0 (v.setWidth 16)
  | .digest => cmdWord 0x03 0 0
  | .hexdigest => cmdWord 0x04 0 0

/-- The word the opcode table's numbering gives: a command is one 32-bit word that stands on `cmd_word` as a whole
(R70, R71, R86), so bit `k` of the table's number is bit `k` of the word, and bits at and above `nbits` are 0 (log 20). -/
def tableWord (nbits w : Nat) : CmdWord := BitVec.ofNat 32 (w % 2 ^ nbits)

/-- The command the decoder reads from a word numbered as opcode_table.json numbers it. No command is longer than
32 bits (R86). -/
def decodeTableWord (nbits w : Nat) : Option Instr :=
  if nbits ≤ 32 then (decode (tableWord nbits w)).toOption else none

end Sys2Proof
end

