-- ==== Sys2Proof/Config.lean ====
section
/-! DEFINITION. The fixed parameters of R7, and the free values of what the spec leaves unspecified. -/

namespace Sys2Proof.Config

/-- The value of `N` at which one more complete block would make it `2^64` (R183): `2^64 − 512`. -/
def lastCount : Nat := 2 ^ 64 - 512

/-- MAX_MESSAGE_BYTES (R7, R183): the longest message the engine hashes. -/
def maxMessageBytes : Nat := 2 ^ 61 - 1

/-- FREE VALUE (U1, D8, R26): what cell `i` of `BUF` holds after the cells were made unspecified for the `k`-th time.
Nothing constrains it (log 4; safe). -/
opaque freeCell : Nat → Fin 64 → Byte

end Sys2Proof.Config
end

