-- ==== Sys2Proof/Machine/State.lean ====
section
/-! DEFINITION. The state of the engine as plain data, its state after reset, and the ways a step could stop. -/

namespace Sys2Proof.Machine

/-- The digest mode `DS` (R27), a two-valued register. -/
inductive DigestMode where
  /-- `DS = 0`: `digest_size = 512`. -/
  | d512
  /-- `DS = 1`: `digest_size = 256`. -/
  | d256
  deriving DecidableEq, Repr

/-- `PHASE` (R28). The reserved value 3 "is never written by any rule"; U3 says to make the type three-valued (log 6). -/
inductive Phase where
  /-- 0: the engine takes appends. -/
  | accumulating
  /-- 1: a digest is being computed; exists only inside that command's step. -/
  | finalizing
  /-- 2: the last command was a DIGEST or HEXDIGEST that completed. -/
  | done
  deriving DecidableEq, Repr

/-- `FAULT` (R29): the sticky fault register's four values (U4). -/
inductive FaultCode where
  /-- 0. -/
  | none
  /-- 1: an INIT whose digest size is neither 256 nor 512 (R181). -/
  | invalidParameter
  /-- 2: a word that is none of the four encodings (R182). -/
  | illegalCommand
  /-- 3: an UPDATE that would bring the message to 2^61 bytes (R183). -/
  | lengthOverflow
  deriving DecidableEq, Repr

/-- A response (R16, R78): the status byte and the payload. `rsp_len` is the payload's length (U2, log 3). -/
structure Response where
  status  : Byte
  payload : List Byte
  deriving DecidableEq, Repr

/-- What the host drives on the input pins at one port event (R70, log 1). -/
structure Pins where
  rst      : Bool
  cmdValid : Bool
  cmdWord  : CmdWord
  rspReady : Bool
  deriving DecidableEq, Repr

/-- The state of the engine: the eight registers of R21, the ghost message of R33, the response port of R35 and R70,
what the host will drive on the input pins, and the index of the next free values. -/
structure State where
  /-- `H` (R22). -/
  h      : Block
  /-- `N` (R23). -/
  n      : BitVec 512
  /-- `SIGMA` (R24). -/
  sigma  : Block
  /-- `BUF[0..63]` (R26); the engine has no other store than this and its constant tables (R31, log 21). -/
  buf    : Vector Byte 64
  /-- `BUFLEN` (R26), 0..63. -/
  buflen : Fin 64
  /-- `DS` (R27). -/
  ds     : DigestMode
  /-- `PHASE` (R28). -/
  phase  : Phase
  /-- `FAULT` (R29). -/
  fault  : FaultCode
  /-- The response waiting to be taken, if there is one (R35, R70, R78). -/
  rsp    : Option Response
  /-- GHOST `MSG` (R33): the bytes appended since the last reset or successful INIT. No meaning reads it (log 8). -/
  msg    : List Byte
  /-- What the host drives at the coming port events, the next one first (log 1). -/
  inputs : List Pins
  /-- The model's own: how often the cells of `BUF` have been made unspecified (log 4, log 5). -/
  free   : Nat
  deriving DecidableEq, Repr

/-- Why the machine would stop. It has no constructor: every rule of the spec gives every command word in every state
a next state, the three faults of R180 included (R186, R206), so no meaning stops. -/
inductive Fault where
  deriving DecidableEq, Repr

/-- Why a step would be refused a meaning. -/
inductive Refusal where
  /-- Raised only by an arm of `exec` whose instruction has no meaning yet; no arm is left so (safe). The spec's own
  "refusal" of a command while `FAULT` is not 0 (R184) is a next state, not this. -/
  | notModelled (mnemonic : String)
  deriving DecidableEq, Repr

/-- 64 cells of unspecified content: the `k`-th batch of free values (R26, U1, log 4). -/
@[irreducible] def freeCells (k : Nat) : Vector Byte 64 := Vector.ofFn fun i => Config.freeCell k i

/-- The machine right after reset (R36): a construction with the defaults. `BUF` is unspecified there, so its cells
are free values (log 4); `inputs` is empty (log 2) and `free` is 1, the batches used so far (log 5): DESIGN CHOICE. -/
def State.reset : State where
  h      := 0
  n      := 0
  sigma  := 0
  buf    := freeCells 0
  buflen := 0
  ds     := .d512
  phase  := .accumulating
  fault  := .none
  rsp    := Option.none
  msg    := []
  inputs := []
  free   := 1

end Sys2Proof.Machine
end

