-- ==== Sys2Proof/Machine/Operands.lean ====
section
/-! DEFINITION. The byte and word views of a block (R10, R51 to R56), the operand of INIT (R73, R27), the blocks the
engine assembles (R81 to R83) and the hexadecimal payload (R80). -/

namespace Sys2Proof.Machine

/-- The number whose base-`2^w` digits are the listed words, the first the least significant: the sums of R10. -/
def packWords {w : Nat} : List (BitVec w) → Nat
  | [] => 0
  | x :: xs => x.toNat + 2 ^ w * packWords xs

/-- `b[i]`, byte `i` of a block (R9, R10). -/
def byte (b : Block) (i : Fin 64) : Byte := b.extractLsb' (8 * i.val) 8

/-- The block whose byte `i` is `f i` (R9, R10). -/
@[irreducible] def ofBytes (f : Fin 64 → Byte) : Block := BitVec.ofNat 512 (packWords ((List.finRange 64).map f))

/-- `word64(b, k)`: bytes `8k .. 8k+7`, byte `8k` least significant (R10, R51). -/
def word64 (b : Block) (k : Fin 8) : Word64 := b.extractLsb' (64 * k.val) 64

/-- The block whose word `k` is `f k`: `le64(f 0) ++ … ++ le64(f 7)` (R10, R114). -/
@[irreducible] def ofWords (f : Fin 8 → Word64) : Block := BitVec.ofNat 512 (packWords ((List.finRange 8).map f))

/-- The bytes of a block, byte 0 first (R9). -/
def bytes (b : Block) : List Byte := (List.finRange 64).map (byte b)

/-- The block of a list of 64 bytes, the first byte 0. A byte the list does not have would be 0; every list a rule
gives here has 64 (log 22). -/
def ofList (bs : List Byte) : Block := ofBytes fun i => bs.getD i.val 0

/-- `int512(b)` (R10, R52). -/
def int512 (b : Block) : Nat := b.toNat

/-- `blk512(v)` (R10). -/
def blk512 (v : Nat) : Block := BitVec.ofNat 512 v

/-- `REP(v, 64)` (R9). -/
def rep (v : Byte) : Block := ofBytes fun _ => v

/-- Byte `t` of `le64(v)`: `v[8t+7 : 8t]` (R10). -/
def le64Byte (v : Word64) (t : Nat) : Byte := v.extractLsb' (8 * t) 8

/-- `le64(v)` (R10). -/
def le64 (v : Word64) : List Byte := (List.range 8).map (le64Byte v)

/-- A bit counter advanced by `k` bits, modulo `2^w` (R23, R145). -/
@[irreducible] def addBits {w : Nat} (n : BitVec w) (k : Nat) : BitVec w := n + BitVec.ofNat w k

/-- The mode that the operand of INIT names: 256 and 512, and no other (R73, R151, R181). -/
def modeOfSize (ds : BitVec 16) : Option DigestMode :=
  if ds = 256 then some .d256 else if ds = 512 then some .d512 else none

/-- `digest_size` of a mode (R27). -/
def DigestMode.size : DigestMode → Nat
  | .d512 => 512
  | .d256 => 256

/-- The bit that `DS` holds for a mode (R27). -/
def DigestMode.code : DigestMode → BitVec 1
  | .d512 => 0
  | .d256 => 1

/-- `KeyBlock(n, h) = (h[0..7] xor le64(n)) ++ h[8..63]` (R81). -/
def keyBlock (n : Word64) (h : Block) : Block :=
  ofBytes fun i => if i.val < 8 then byte h i ^^^ le64Byte n i.val else byte h i

/-- `PadBlock(t) = t ++ [0x01] ++ ZERO(63 − r)` for a tail `t` of `r ≤ 63` bytes (R82). -/
def padBlock (t : List Byte) : Block := ofList (t ++ [0x01] ++ List.replicate (63 - t.length) 0)

/-- `LenBlock(n) = le64(n) ++ ZERO(56)` (R83). -/
def lenBlock (n : Word64) : Block := ofList (le64 n ++ List.replicate 56 0)

/-- The digest that a finalised chaining value gives in a mode: `h[0..63]`, or `h[32..63]` (R56, R78, R154). -/
def digestOf : DigestMode → Block → List Byte
  | .d512, hf => bytes hf
  | .d256, hf => (bytes hf).drop 32

/-- The ASCII character of a hexadecimal digit: `0`..`9`, then lower-case `a`..`f` (R80). -/
def hexChar (d : BitVec 4) : Byte :=
  if d.toNat < 10 then BitVec.ofNat 8 (0x30 + d.toNat) else BitVec.ofNat 8 (0x61 + (d.toNat - 10))

/-- The two characters of a byte, high nibble first (R80, log 12). -/
def hexByte (b : Byte) : List Byte := [hexChar (b.extractLsb' 4 4), hexChar (b.extractLsb' 0 4)]

/-- `Hex(d)` (R80). -/
def hex (d : List Byte) : List Byte := d.flatMap hexByte

end Sys2Proof.Machine
end

