-- ==== Sys2Proof/Machine/Tables.lean ====
section
/-! DEFINITION. The four constant tables (R100 to R103) and the initial values (R104). They are parameters of the step
function, not state (R31, R105). Their values are those that spec/40_constants.md prints (log 11). -/

namespace Sys2Proof.Machine

/-- Row `r` of the grid of R100, column 0 first. -/
def rowsPI : List (List Byte) := [
  [0xfc, 0xee, 0xdd, 0x11, 0xcf, 0x6e, 0x31, 0x16, 0xfb, 0xc4, 0xfa, 0xda, 0x23, 0xc5, 0x04, 0x4d],
  [0xe9, 0x77, 0xf0, 0xdb, 0x93, 0x2e, 0x99, 0xba, 0x17, 0x36, 0xf1, 0xbb, 0x14, 0xcd, 0x5f, 0xc1],
  [0xf9, 0x18, 0x65, 0x5a, 0xe2, 0x5c, 0xef, 0x21, 0x81, 0x1c, 0x3c, 0x42, 0x8b, 0x01, 0x8e, 0x4f],
  [0x05, 0x84, 0x02, 0xae, 0xe3, 0x6a, 0x8f, 0xa0, 0x06, 0x0b, 0xed, 0x98, 0x7f, 0xd4, 0xd3, 0x1f],
  [0xeb, 0x34, 0x2c, 0x51, 0xea, 0xc8, 0x48, 0xab, 0xf2, 0x2a, 0x68, 0xa2, 0xfd, 0x3a, 0xce, 0xcc],
  [0xb5, 0x70, 0x0e, 0x56, 0x08, 0x0c, 0x76, 0x12, 0xbf, 0x72, 0x13, 0x47, 0x9c, 0xb7, 0x5d, 0x87],
  [0x15, 0xa1, 0x96, 0x29, 0x10, 0x7b, 0x9a, 0xc7, 0xf3, 0x91, 0x78, 0x6f, 0x9d, 0x9e, 0xb2, 0xb1],
  [0x32, 0x75, 0x19, 0x3d, 0xff, 0x35, 0x8a, 0x7e, 0x6d, 0x54, 0xc6, 0x80, 0xc3, 0xbd, 0x0d, 0x57],
  [0xdf, 0xf5, 0x24, 0xa9, 0x3e, 0xa8, 0x43, 0xc9, 0xd7, 0x79, 0xd6, 0xf6, 0x7c, 0x22, 0xb9, 0x03],
  [0xe0, 0x0f, 0xec, 0xde, 0x7a, 0x94, 0xb0, 0xbc, 0xdc, 0xe8, 0x28, 0x50, 0x4e, 0x33, 0x0a, 0x4a],
  [0xa7, 0x97, 0x60, 0x73, 0x1e, 0x00, 0x62, 0x44, 0x1a, 0xb8, 0x38, 0x82, 0x64, 0x9f, 0x26, 0x41],
  [0xad, 0x45, 0x46, 0x92, 0x27, 0x5e, 0x55, 0x2f, 0x8c, 0xa3, 0xa5, 0x7d, 0x69, 0xd5, 0x95, 0x3b],
  [0x07, 0x58, 0xb3, 0x40, 0x86, 0xac, 0x1d, 0xf7, 0x30, 0x37, 0x6b, 0xe4, 0x88, 0xd9, 0xe7, 0x89],
  [0xe1, 0x1b, 0x83, 0x49, 0x4c, 0x3f, 0xf8, 0xfe, 0x8d, 0x53, 0xaa, 0x90, 0xca, 0xd8, 0x85, 0x61],
  [0x20, 0x71, 0x67, 0xa4, 0x2d, 0x2b, 0x09, 0x5b, 0xcb, 0x9b, 0x25, 0xd0, 0xbe, 0xe5, 0x6c, 0x52],
  [0x59, 0xa6, 0x74, 0xd2, 0xe6, 0xf4, 0xb4, 0xc0, 0xd1, 0x66, 0xaf, 0xc2, 0x39, 0x4b, 0x63, 0xb6]]

/-- `RomRead(PI, x)`: the entry in row `x[7:4]`, column `x[3:0]` (R100, R106). -/
def romPI (x : Fin 256) : Byte := (rowsPI.getD (x.val / 16) []).getD (x.val % 16) 0

/-- The grid of R101, row by row. -/
def rowsTAU : List (List (Fin 64)) := [
  [0, 8, 16, 24, 32, 40, 48, 56],
  [1, 9, 17, 25, 33, 41, 49, 57],
  [2, 10, 18, 26, 34, 42, 50, 58],
  [3, 11, 19, 27, 35, 43, 51, 59],
  [4, 12, 20, 28, 36, 44, 52, 60],
  [5, 13, 21, 29, 37, 45, 53, 61],
  [6, 14, 22, 30, 38, 46, 54, 62],
  [7, 15, 23, 31, 39, 47, 55, 63]]

/-- `RomRead(TAU, i)`: entry `8 * row + column` of the grid (R101, R106). -/
def romTAU (i : Fin 64) : Fin 64 := (rowsTAU.getD (i.val / 8) []).getD (i.val % 8) 0

/-- The masks of R102, four a row as they are printed. -/
def rowsA : List (List Word64) := [
  [0x8e20faa72ba0b470, 0x47107ddd9b505a38, 0xad08b0e0c3282d1c, 0xd8045870ef14980e],
  [0x6c022c38f90a4c07, 0x3601161cf205268d, 0x1b8e0b0e798c13c8, 0x83478b07b2468764],
  [0xa011d380818e8f40, 0x5086e740ce47c920, 0x2843fd2067adea10, 0x14aff010bdd87508],
  [0x0ad97808d06cb404, 0x05e23c0468365a02, 0x8c711e02341b2d01, 0x46b60f011a83988e],
  [0x90dab52a387ae76f, 0x486dd4151c3dfdb9, 0x24b86a840e90f0d2, 0x125c354207487869],
  [0x092e94218d243cba, 0x8a174a9ec8121e5d, 0x4585254f64090fa0, 0xaccc9ca9328a8950],
  [0x9d4df05d5f661451, 0xc0a878a0a1330aa6, 0x60543c50de970553, 0x302a1e286fc58ca7],
  [0x18150f14b9ec46dd, 0x0c84890ad27623e0, 0x0642ca05693b9f70, 0x0321658cba93c138],
  [0x86275df09ce8aaa8, 0x439da0784e745554, 0xafc0503c273aa42a, 0xd960281e9d1d5215],
  [0xe230140fc0802984, 0x71180a8960409a42, 0xb60c05ca30204d21, 0x5b068c651810a89e],
  [0x456c34887a3805b9, 0xac361a443d1c8cd2, 0x561b0d22900e4669, 0x2b838811480723ba],
  [0x9bcf4486248d9f5d, 0xc3e9224312c8c1a0, 0xeffa11af0964ee50, 0xf97d86d98a327728],
  [0xe4fa2054a80b329c, 0x727d102a548b194e, 0x39b008152acb8227, 0x9258048415eb419d],
  [0x492c024284fbaec0, 0xaa16012142f35760, 0x550b8e9e21f7a530, 0xa48b474f9ef5dc18],
  [0x70a6a56e2440598e, 0x3853dc371220a247, 0x1ca76e95091051ad, 0x0edd37c48a08a6d8],
  [0x07e095624504536c, 0x8d70c431ac02a736, 0xc83862965601dd1b, 0x641c314b2b8ee083]]

/-- `RomRead(A, j)` (R102, R106). -/
def romA (j : Fin 64) : Word64 := (rowsA.getD (j.val / 4) []).getD (j.val % 4) 0

/-- The block that a string of 128 hexadecimal digits spells, byte 0 first (R11), the string read as one number: its
most significant byte is byte 0. -/
def spelled (v : Nat) : Block := ofBytes fun i => BitVec.ofNat 8 (v >>> (8 * (63 - i.val)))

/-- The round constants in the normative `bytes` form of R103, the four lines of each joined. -/
def rowsC : List Nat := [
  0x0745a6f2596580dd234d74cc3674760515d360a4082a42a20169679291e07c4bfcc485758db84e7116d0452e43766a2f1f7c65c0812fcbebe9daca1eda5b08b1,
  0xb79bb121700479e656cdcbd71ba2dd55caa70adbc261b55c5899d6126b17b59a3101b5160f5ed561982b230a72eafef3d7b5700f469de34f1a2f9da98ab5a36f,
  0xb20aba0af5961e9931db7a8643f4b6c209db6260373ac9c1b19e3590e40fe2d37b7b29b11475eaf28b1f9c525f5ef10635843d6a28fc390ac72fce2bacdc74f5,
  0x2ed1e384bcbe0c22f137e893a1ea5334be0352933313b7d875d603ed822cd7a93f355e68ad1c729d7d3c5c337e858e48dde4715da0e148f9d26615e8b3df1fef,
  0x57fe6c7cfd581760f563eaa97ea2567a161a2723b700ffdfa3f53a254717cdbfbdff0f80d7359e354a1086161f1c157f6323a96c0c413f9a994747adac6bea4b,
  0x6e7d64467a4068fa354f903672c571bfb6c6bec2661ff20ab4b79a1cb7a6facfc68ef09ab49a7f186ca44251f9c4662dc039307a3bc3a46fd9d33a1daeae4fae,
  0x93d4143a4d568688f34a3ca24c45173504054a2883694706372c822dc5ab9209c9937a19333e47d3c987bfe6c7c69e39540924bffe86ac51ecc5aaee160ec7f4,
  0x1ee702bfd40d7fa4d9a8515935c2ac362fc4a5d12b8dd16990069b92cb2b89f49ac4db4d3b44b4891ede369c71f8b74e41416e0c02aae703a7c9934d425b1f9b,
  0xdb5a238351446172602a1fcb92dc380e549c07a69a8a2b7bb1ceb2db0b440a8084090de0b755d93c244289251b3a7d3ade5f16ecd89a4c949b223116545a8f37,
  0xed9c4598fbc7b474c3b63b15d1fa9836f452763b306c1e7a4b3369af0267e79f0361331b8ae1ff1fdb788aff1ce74189f3f3e4b248e52a38526f0580a6debeab,
  0x1b2df381cda4ca6b5dd86fc04a59a2de986e477d1dcdbaefcab948eaef711d8a79668414218001206107abebbb6bfad894fe5a63cdc60230fb89c8efd09ecd7b,
  0x20d71bf14a92bc48991bb2d9d517f4fa5228e188aaa41de786cc91189def805d9b9f2130d41220f8771ddfbc323ca4cd7ab14904b08013d2ba3116f167e78e37]

/-- `RomRead(C, i)` (R103, R106). -/
def romC (i : Fin 12) : Block := spelled (rowsC.getD i.val 0)

/-- `IV(256) = REP(0x01, 64)` and `IV(512) = ZERO(64)` (R104). -/
def iv : DigestMode → Block
  | .d256 => rep 0x01
  | .d512 => 0

end Sys2Proof.Machine
end

