-- ==== Sys2Proof/Machine/Layers.lean ====
section
/-! DEFINITION. The stateless layers X, S, P, l, L and the round LPS (R110 to R115). -/

namespace Sys2Proof.Machine

/-- `X(a, b)[i] = a[i] xor b[i]` (R110): the exclusive-or of two blocks, bit for bit. -/
def layerX (a b : Block) : Block := a ^^^ b

/-- `S(a)[i] = RomRead(PI, a[i])` (R111). -/
def layerS (a : Block) : Block := ofBytes fun i => romPI (byte a i).toFin

/-- `P` (R112) in the form `P(a)[i] = a[TAU[i]]`, which R112 gives as equal to `P(a)[TAU[i]] = a[i]` because TAU is
an involution (log 17). -/
def layerP (a : Block) : Block := ofBytes fun i => byte a (romTAU i)

/-- One scan position of `l`: for a set bit `63 − j` of `w` the mask `A[j]` is xored in (R113). -/
def scanStep (w acc : Word64) (j : Fin 64) : Word64 :=
  if w.getLsbD (63 - j.val) then acc ^^^ romA j else acc

/-- `l(w)` (R113): scan positions 0 to 63, the most significant bit first. -/
@[irreducible] def wordL (w : Word64) : Word64 := (List.finRange 64).foldl (scanStep w) 0

/-- `L(a)` (R114): each word by itself, in the original order. -/
def layerL (a : Block) : Block := ofWords fun k => wordL (word64 a k)

/-- `LPS(a) = L(P(S(a)))` (R115). -/
@[irreducible] def lps (a : Block) : Block := layerL (layerP (layerS a))

end Sys2Proof.Machine
end

