-- ==== Sys2Proof/Machine/Cipher.lean ====
section
/-! DEFINITION. The 12-round keyed block cipher E (R130). -/

namespace Sys2Proof.Machine

/-- One round of E on the pair (round key, data): the data update takes the key of before the key update (R130). -/
def roundE (kx : Block × Block) (i : Fin 12) : Block × Block :=
  (lps (layerX kx.1 (romC i)), lps (layerX kx.1 kx.2))

/-- `E(K, m)` (R130): rounds 0 to 11, then the final whitening. -/
@[irreducible] def cipherE (K m : Block) : Block :=
  let kx := (List.finRange 12).foldl roundE (K, m)
  layerX kx.1 kx.2

end Sys2Proof.Machine
end

