-- ==== Sys2Proof/Machine/Compression.lean ====
section
/-! DEFINITION. The compression function g (R140) and the 512-bit adder (R144). -/

namespace Sys2Proof.Machine

/-- `g(n, h, m)` (R140). The step value is 64 bits wide, so no other can be written (R142, U5). -/
@[irreducible] def compressG (n : Word64) (h m : Block) : Block :=
  layerX (layerX (cipherE (lps (keyBlock n h)) m) h) m

/-- `a[i] + b[i] + c` of R144, with `c` the carry: a 9-bit sum. -/
def byteSum (a b : Byte) (c : Bool) : BitVec 9 :=
  a.setWidth 9 + b.setWidth 9 + (BitVec.ofBool c).setWidth 9

/-- The loop of R144 over two byte sequences, the carry going from each byte to the next; the last carry is dropped. -/
def addBytes : List Byte → List Byte → Bool → List Byte
  | a :: as, b :: bs, c => (byteSum a b c).setWidth 8 :: addBytes as bs ((byteSum a b c).getLsbD 8)
  | _, _, _ => []

/-- `add512(a, b)` (R144): bytewise addition from byte 0 to byte 63, modulo 2^512. -/
@[irreducible] def add512 (a b : Block) : Block := ofList (addBytes (bytes a) (bytes b) false)

end Sys2Proof.Machine
end

