-- ==== Sys2Proof/Machine/Finalise.lean ====
section
/-! DEFINITION. Finalisation on copies, `Final` (R155), and the reference function `Streebog` (R150). -/

namespace Sys2Proof.Machine

/-- `Final(h, n, s, t)` (R155): steps 2 to 5 of the source's procedure, on copies. The count `n + 8 * r` is a 64-bit
sum; on the rule's domain it does not wrap (log 10). -/
def final (h : Block) (n : Word64) (s : Block) (t : List Byte) : Block :=
  let pd := padBlock t
  let h1 := compressG n h pd
  let n1 := addBits n (8 * t.length)
  let s1 := add512 s pd
  let h2 := compressG 0 h1 (lenBlock n1)
  compressG 0 h2 s1

/-- What the loop over complete blocks carries (R150): the chaining value, the bit count and the checksum. -/
structure Chain where
  h : Block
  n : Word64
  s : Block
  deriving DecidableEq, Repr

/-- The start of the loop: `h <- IV(ds)`, `n <- 0`, `s <- ZERO(64)` (R150). -/
def Chain.start (m : DigestMode) : Chain := ⟨iv m, 0, 0⟩

/-- One pass of the loop: `n` is the count before the block (R150, step 1). -/
def Chain.block (c : Chain) (b : Block) : Chain := ⟨compressG c.n c.h b, addBits c.n 512, add512 c.s b⟩

/-- The complete blocks of a message, in order: `data[64j .. 64j+63]` for `j` in `0 .. floor(len / 64) − 1` (R150, R54). -/
def completeBlocks (data : List Byte) : List Block :=
  (List.range (data.length / 64)).map fun j => ofList ((data.drop (64 * j)).take 64)

/-- The tail of a message: the `len mod 64` bytes after the last complete block (R150, step 2). -/
def tailBytes (data : List Byte) : List Byte := data.drop (64 * (data.length / 64))

/-- The loop of R150 over the complete blocks of a message. -/
def chainOf (m : DigestMode) (data : List Byte) : Chain :=
  (completeBlocks data).foldl Chain.block (Chain.start m)

/-- `Streebog(ds, data)` (R150), for messages of at most 2^61 − 1 bytes; beyond, the spec gives no value and neither
does this function (R150, U6, log 14). -/
def streebog (m : DigestMode) (data : List Byte) : Option (List Byte) :=
  if data.length ≤ Config.maxMessageBytes then
    let c := chainOf m data
    let t := tailBytes data
    let pd := padBlock t
    let h := compressG c.n c.h pd
    let n := addBits c.n (8 * t.length)
    let s := add512 c.s pd
    let h := compressG 0 h (lenBlock n)
    let h := compressG 0 h s
    some (digestOf m h)
  else none

end Sys2Proof.Machine
end

