-- ==== Sys2Proof/Machine/Flags.lean ====
section
/-! DEFINITION. The engine's only flag, the sticky register FAULT (R29), the status byte made from it (R79), and the
numeric codes of FAULT and PHASE (R28, R29). -/

namespace Sys2Proof.Machine

/-- The 2-bit value of FAULT (R29, R180). -/
def FaultCode.code : FaultCode → BitVec 2
  | .none => 0
  | .invalidParameter => 1
  | .illegalCommand => 2
  | .lengthOverflow => 3

/-- The 2-bit value of PHASE (R28). -/
def Phase.code : Phase → BitVec 2
  | .accumulating => 0
  | .finalizing => 1
  | .done => 2

/-- FAULT after a cause is raised: `if FAULT = 0 then FAULT <- cause`, the first cause wins (R29, R186). -/
def FaultCode.latch (old cause : FaultCode) : FaultCode :=
  if old = .none then cause else old

/-- The status byte `zext_8(FAULT)` (R79). -/
def statusByte (f : FaultCode) : Byte := f.code.setWidth 8

end Sys2Proof.Machine
end

