-- ==== Sys2Proof/Machine/Ops.lean ====
section
/-! DEFINITION. The named operations on the state that the commands share: responding, taking a fault, refusing, the
cells of BUF, appending a byte, absorbing a block, the finalisation, the reset event. -/

namespace Sys2Proof.Machine

/-- `respond(status, payload)` (R16, R78): the response stands at the response port. -/
def respond (status : Byte) (payload : List Byte) (s : State) : State :=
  { s with rsp := some ⟨status, payload⟩ }

/-- TAKING A FAULT (R15, R186): `if FAULT = 0 then FAULT <- cause`, nothing else is written, and the response is
`(zext_8(FAULT), empty)` with FAULT as just written. There is no handler and no return from it: FAULT is cleared by a
successful INIT and by reset only (R187). -/
def raise (cause : FaultCode) (s : State) : State :=
  respond (statusByte (s.fault.latch cause)) [] { s with fault := s.fault.latch cause }

/-- A command refused while FAULT is not 0 (R184): nothing is written, the response is `(zext_8(FAULT), empty)`. -/
def refuse (s : State) : State := respond (statusByte s.fault) [] s

/-- The cells of BUF become unspecified (R26, R37, U1): the next batch of free values (log 4). -/
def unspecifyBuf (s : State) : State := { s with buf := freeCells s.free, free := s.free + 1 }

/-- `BUF[BUFLEN] <- v` (R152, R161). -/
def putCell (v : Byte) (s : State) : State := { s with buf := s.buf.set s.buflen.val v s.buflen.isLt }

/-- The tail `BUF[0..BUFLEN−1]` (R26, R161). -/
def tail (s : State) : List Byte := s.buf.toList.take s.buflen.val

/-- The block `BUF[0..63]`, byte `i` the cell `i` (R54, R152). -/
def bufBlock (s : State) : Block := ofBytes fun i => s.buf[i]

/-- `N[63:0]` (R142, R153, R154). -/
def stepValue (s : State) : Word64 := s.n.extractLsb' 0 64

/-- `Absorb(B)` (R153): the three right-hand sides use the old H, N and SIGMA. -/
def absorb (b : Block) (s : State) : State :=
  { s with h := compressG (stepValue s) s.h b, sigma := add512 s.sigma b, n := addBits s.n 512 }

/-- The body of UPDATE (R152) up to its response. After the 64th byte the block is absorbed, BUFLEN is 0 and the cells
of BUF are unspecified (R37). -/
def appendByte (v : Byte) (s : State) : State :=
  let p := putCell v s
  let q := if s.buflen = 63 then unspecifyBuf { absorb (bufBlock p) p with buflen := 0 }
           else { p with buflen := s.buflen + 1 }
  { q with phase := .accumulating, msg := s.msg ++ [v] }

/-- The condition of LengthOverflow: `BUFLEN = 63 and N = 2^64 − 512` (R160, R183). -/
def lengthAtLimit (s : State) : Bool :=
  decide (s.buflen = 63) && decide (s.n = BitVec.ofNat 512 Config.lastCount)

/-- The body of a successful INIT (R151) up to its response. -/
def construct (m : DigestMode) (s : State) : State :=
  unspecifyBuf { s with h := iv m, n := 0, sigma := 0, buflen := 0, ds := m, phase := .accumulating,
                        fault := .none, msg := [] }

/-- PHASE inside a DIGEST or HEXDIGEST (R28, R157, log 7). -/
def enterFinalizing (s : State) : State := { s with phase := .finalizing }

/-- PHASE when a DIGEST or HEXDIGEST has completed (R28, R157). -/
def enterDone (s : State) : State := { s with phase := .done }

/-- The digest of the state (R154): `Final` on a copy of H, N, SIGMA and on the tail, cut to the mode's length. It
writes no register (R32). -/
def digestBytes (s : State) : List Byte :=
  digestOf s.ds (final s.h (stepValue s) s.sigma (tail s))

/-- The reset event (R200, R36): every register at its reset value whatever the state before, the cells of BUF
unspecified (log 4), no response, an untaken one withdrawn (R204). What the host will drive is not the engine's. -/
def resetEvent (s : State) : State :=
  { State.reset with buf := freeCells s.free, free := s.free + 1, inputs := s.inputs }

end Sys2Proof.Machine
end

