-- ==== Sys2Proof/Machine/Commands.lean ====
section
/-! DEFINITION. The meanings of the four commands (R151 to R156), each with its tests in the order of R160. -/

namespace Sys2Proof.Machine

/-- INIT ds (R151): the one command that runs while FAULT is not 0. Any size but 256 and 512 raises InvalidParameter
before anything is written (R160, R181). -/
def execInit (ds : BitVec 16) (s : State) : Host.Outcome State Fault Refusal :=
  match modeOfSize ds with
  | some m => .next (respond 0 [] (construct m s))
  | none => .next (raise .invalidParameter s)

/-- UPDATE v (R152, R153): refused while FAULT is not 0 (R184), LengthOverflow at byte number 2^61 (R183). -/
def execUpdate (v : Byte) (s : State) : Host.Outcome State Fault Refusal :=
  if s.fault ≠ .none then .next (refuse s)
  else if lengthAtLimit s then .next (raise .lengthOverflow s)
  else .next (respond 0 [] (appendByte v s))

/-- DIGEST (R154): refused while FAULT is not 0 (R184); PHASE is FINALIZING while the digest is computed and DONE
after (R157). -/
def execDigest (s : State) : Host.Outcome State Fault Refusal :=
  if s.fault ≠ .none then .next (refuse s)
  else
    let f := enterFinalizing s
    .next (respond 0 (digestBytes f) (enterDone f))

/-- HEXDIGEST (R156): the payload is `Hex` of what DIGEST would give in the same state. -/
def execHexdigest (s : State) : Host.Outcome State Fault Refusal :=
  if s.fault ≠ .none then .next (refuse s)
  else
    let f := enterFinalizing s
    .next (respond 0 (hex (digestBytes f)) (enterDone f))

end Sys2Proof.Machine
end

