-- ==== Sys2Proof/Machine/Dispatch.lean ====
section
/-! DEFINITION. The dispatcher of R160 over the decoded commands: one arm per command. It does not look at
the response port: a step does (log 18). -/

namespace Sys2Proof.Machine

def exec (i : Instr) (s : State) : Host.Outcome State Fault Refusal :=
  match i with
  | .init ds => Sys2Proof.Machine.execInit ds s
  | .update v => Sys2Proof.Machine.execUpdate v s
  | .digest => Sys2Proof.Machine.execDigest s
  | .hexdigest => Sys2Proof.Machine.execHexdigest s

end Sys2Proof.Machine
end

