-- ==== Sys2Proof/Machine/Ports.lean ====
section
/-! DEFINITION. The ports of R70: which event the next pins bring, what each event does, what the output pins show. -/

namespace Sys2Proof.Machine

/-- `cmd_ready` (R70): no response is waiting to be taken. No command is ever in progress between two steps, because
a command is one atomic step (R20, R205, log 13). -/
def cmdReady (s : State) : Bool := s.rsp.isNone

/-- `rsp_valid` (R70). -/
def rspValid (s : State) : Bool := s.rsp.isSome

/-- What happens at a port event (R70, R200, R204). -/
inductive PortEvent where
  /-- the host has nothing more to drive: the engine is idle and waits (R195, R206, R209). -/
  | idle
  /-- `rst` is asserted. -/
  | reset
  /-- `rsp_valid` and `rsp_ready` are both asserted. -/
  | taken
  /-- `cmd_valid` and `cmd_ready` are both asserted, with this command word. -/
  | accepted (w : CmdWord)
  /-- the pins bring neither: no command is presented to an idle engine, or a response waits untaken. -/
  | nothing
  deriving DecidableEq, Repr

/-- The event that one set of pins brings in a state: reset wins over everything (R204, log 15); a command is accepted
only while no response waits (R70, log 16). -/
def pinsEvent (p : Pins) (s : State) : PortEvent :=
  if p.rst then .reset
  else if rspValid s && p.rspReady then .taken
  else if cmdReady s && p.cmdValid then .accepted p.cmdWord
  else .nothing

/-- The event of the next step. -/
def portEvent (s : State) : PortEvent :=
  match s.inputs with
  | [] => .idle
  | p :: _ => pinsEvent p s

/-- The port event has passed: what the host drove at it is no longer to come. -/
def nextInput (s : State) : State := { s with inputs := s.inputs.tail }

/-- The host takes the response (R35, R70). -/
def takeResponse (s : State) : State := { s with rsp := Option.none }

/-- An accepted command word is executed (R160): an Illegal one raises IllegalCommand (R76, R182). -/
def runWord (w : CmdWord) (s : State) : Host.Outcome State Fault Refusal :=
  match decode w with
  | .ok i => exec i s
  | .error _ => .next (raise .illegalCommand s)

/-- What the host drives to present a command word and nothing else (R70). -/
def presentWord (w : CmdWord) : Pins := ⟨false, true, w, false⟩

/-- What the host drives to take a response and nothing else (R70). -/
def takePins : Pins := ⟨false, false, 0, true⟩

/-- What the host drives to reset the engine and nothing else (R70, R200). -/
def resetPins : Pins := ⟨true, false, 0, false⟩

/-- The state in which the host presents `w` next and the engine can take it: an earlier response has been taken
(R70, log 2). -/
def presented (w : CmdWord) (s : State) : State :=
  { s with rsp := Option.none, inputs := presentWord w :: s.inputs }

/-- The engine's output pins (R70). -/
structure Outputs where
  cmdReady  : Bool
  rspValid  : Bool
  rspStatus : Byte
  rspLen    : Byte
  rspData   : BitVec 1024
  deriving DecidableEq, Repr

/-- Payload byte `i` on the pins: `rsp_data[8i+7 : 8i]` (R70). -/
def rspByte (o : Outputs) (i : Nat) : Byte := o.rspData.extractLsb' (8 * i) 8

/-- The output pins a response may be seen as: status, length and payload bytes are fixed, bytes of `rsp_data` at or
above `rsp_len` are not (R70, U2, log 3). -/
def showsResponse (r : Response) (o : Outputs) : Bool :=
  decide (o.rspStatus = r.status) && decide (o.rspLen.toNat = r.payload.length) &&
    (List.range r.payload.length).all fun i => decide (rspByte o i = r.payload.getD i 0)

/-- The output pins a state may be seen as (R70): while `rsp_valid` is low the response pins are not constrained. -/
def shows (s : State) (o : Outputs) : Bool :=
  decide (o.cmdReady = cmdReady s) && decide (o.rspValid = rspValid s) &&
    match s.rsp with
    | some r => showsResponse r o
    | none => true

end Sys2Proof.Machine
end

