-- ==== Sys2Proof/Machine/Step.lean ====
section
/-! DEFINITION. One step of the engine: the next port event (R20, R70, R160, R200). -/

namespace Sys2Proof.Machine

/-- One step: the reset event, a response taken, an accepted command word executed, or no event. An idle engine with
no input to come stays as it is (R195, R206). -/
def step (s : State) : Host.Outcome State Fault Refusal :=
  match portEvent s with
  | .idle => .next s
  | .reset => .next (resetEvent (nextInput s))
  | .taken => .next (takeResponse (nextInput s))
  | .accepted w => runWord w (nextInput s)
  | .nothing => .next (nextInput s)

/-- The state in which the next step accepts and runs the given command word (log 2). -/
def State.withFetchWord (s : State) (nbits w : Nat) : State := presented (tableWord nbits w) s

end Sys2Proof.Machine
end

