-- ==== Sys2Proof/WellFormed.lean ====
section
/-! DEFINITION. Assembler lines (R84, R85) and when one is well formed. An `Instr` needs no check of its own: each
operand's type is exactly its field of the command word, so every `Instr` has an encoding. -/

namespace Sys2Proof

/-- One line of assembler text as R84 and R85 write it, its numbers not yet checked against their ranges. -/
inductive AsmLine where
  /-- `INIT <ds>` (R84). -/
  | init (ds : Nat)
  /-- `UPDATE <v>` with a number (R84). -/
  | update (v : Nat)
  /-- `UPDATE '<c>'` with a quoted ASCII character (R84). -/
  | updateChar (c : Char)
  /-- `DIGEST` (R84). -/
  | digest
  /-- `HEXDIGEST` (R84). -/
  | hexdigest
  /-- `UPDATES b0, …, b(k−1)` (R85). -/
  | updates (bs : List Nat)
  /-- `UPDATES "text"` (R85): the characters of the text. -/
  | updatesText (cs : List Char)
  /-- `CONSTRUCT <ds>[, b0, …, b(k−1)]` (R85). -/
  | construct (ds : Nat) (bs : List Nat)
  /-- `RESET` (R85): the reset event, not a command word. -/
  | reset
  deriving DecidableEq, Repr

/-- A digest size as written fits the 16-bit operand: 0..65535 (R84). -/
def dsInRange (ds : Nat) : Bool := decide (ds ≤ 65535)

/-- A byte as written is 0..255 (R84). -/
def byteInRange (v : Nat) : Bool := decide (v ≤ 255)

/-- A character is ASCII (R84, R85, log 19). -/
def charIsAscii (c : Char) : Bool := decide (c.toNat ≤ 127)

/-- A line of assembler text is well formed: its numbers and characters are in the ranges of R84. -/
def AsmLine.wf : AsmLine → Bool
  | .init ds => dsInRange ds
  | .update v => byteInRange v
  | .updateChar c => charIsAscii c
  | .digest => true
  | .hexdigest => true
  | .updates bs => bs.all byteInRange
  | .updatesText cs => cs.all charIsAscii
  | .construct ds bs => dsInRange ds && bs.all byteInRange
  | .reset => true

end Sys2Proof
end

