-- ==== Sys2Proof/Machine/Assembler.lean ====
section
/-! DEFINITION. What assembler lines stand for (R84, R85): commands and reset events, and how a host drives them. -/

namespace Sys2Proof.Machine

/-- One step a program asks for: a command, or the reset event (R85, R209). -/
inductive HostAct where
  | command (i : Instr)
  | reset
  deriving DecidableEq, Repr

/-- `UPDATE` of each byte, in order (R85). -/
def updatesOf (bs : List Nat) : List HostAct := bs.map fun b => .command (.update (BitVec.ofNat 8 b))

/-- The expansion of an assembler line (R84, R85); nothing for a line that is not well formed. -/
def expand (a : AsmLine) : Option (List HostAct) :=
  if a.wf then
    match a with
    | .init ds => some [.command (.init (BitVec.ofNat 16 ds))]
    | .update v => some (updatesOf [v])
    | .updateChar c => some (updatesOf [c.toNat])
    | .digest => some [.command .digest]
    | .hexdigest => some [.command .hexdigest]
    | .updates bs => some (updatesOf bs)
    | .updatesText cs => some (updatesOf (cs.map Char.toNat))
    | .construct ds bs => some (.command (.init (BitVec.ofNat 16 ds)) :: updatesOf bs)
    | .reset => some [.reset]
  else none

/-- How a host drives one step of a program: it presents the command word and then takes the response, or it asserts
`rst` (R70, R196). -/
def drive : HostAct → List Pins
  | .command i => [presentWord (encode i), takePins]
  | .reset => [resetPins]

/-- How a host drives a program. -/
def driveAll (acts : List HostAct) : List Pins := acts.flatMap drive

end Sys2Proof.Machine
end

