-- ==== Sys2Proof/Safety.lean ====
section
/-! DEFINITION. What a run is and when it has gone wrong (R184, R209), the state invariant (R34), and the relations
between states that the claims use. -/

namespace Sys2Proof.Machine

/-- A fault stands: no digest can be obtained until a valid INIT or a reset (R184, R209). -/
abbrev State.faulted (s : State) : Prop := s.fault ≠ .none

/-- Commands executed one after another (R61, R209). -/
def execAll : List Instr → State → Host.Outcome State Fault Refusal
  | [], s => .next s
  | i :: is, s =>
    match exec i s with
    | .next t => execAll is t
    | .fault r => .fault r
    | .refused r => .refused r

/-- The responses of commands executed one after another, in order (R209). -/
def execResponses : List Instr → State → List Response
  | [], _ => []
  | i :: is, s =>
    match exec i s with
    | .next t => t.rsp.toList ++ execResponses is t
    | .fault _ => []
    | .refused _ => []

/-- The responses that the host takes during `k` steps, in order: the result of a run (R209). -/
def takenResponses : Nat → State → List Response
  | 0, _ => []
  | k + 1, s =>
    match step s with
    | .next t => (if portEvent s = .taken then s.rsp.toList else []) ++ takenResponses k t
    | .fault _ => []
    | .refused _ => []

/-- A response has a form that R78 and R79 list: status 0 with 0, 32, 64 or 128 bytes, or status 1, 2 or 3 with none. -/
def Response.wf (r : Response) : Bool :=
  (r.status == 0 && [0, 32, 64, 128].contains r.payload.length) ||
    ([1, 2, 3].contains r.status && r.payload.isEmpty)

/-- The state invariant of R34, with the bound of R183, PHASE as it is between commands (R28) and the form of a waiting
response (R78). FAULT does not enter: a fault leaves everything else as it was (R34, R186). -/
structure State.Inv (s : State) : Prop where
  /-- `|MSG| ≤ 2^61 − 1` (R183). -/
  msg_le    : s.msg.length ≤ Config.maxMessageBytes
  /-- `BUFLEN = |MSG| mod 64`. -/
  buflen_eq : s.buflen.val = s.msg.length % 64
  /-- `N = 512 * floor(|MSG| / 64)`. -/
  n_eq      : s.n.toNat = 512 * (s.msg.length / 64)
  /-- `BUF[0..BUFLEN−1]` are the last `BUFLEN` bytes of `MSG`. -/
  tail_eq   : tail s = tailBytes s.msg
  /-- `H` is the result of the loop over the complete blocks of `MSG`. -/
  h_eq      : s.h = (chainOf s.ds s.msg).h
  /-- `SIGMA` is the sum of the complete blocks of `MSG`. -/
  sigma_eq  : s.sigma = (chainOf s.ds s.msg).s
  /-- between commands PHASE is never FINALIZING. -/
  phase_ne  : s.phase ≠ .finalizing
  /-- a waiting response has a form of R78. -/
  rsp_wf    : ∀ r, s.rsp = some r → r.wf = true

/-- Two states differ at most in the ghost `MSG` (R33). -/
abbrev sameButMsg (s t : State) : Prop := { s with msg := [] } = { t with msg := [] }

/-- Two states differ at most in `PHASE` (R28). -/
abbrev sameButPhase (s t : State) : Prop :=
  { s with phase := .accumulating } = { t with phase := .accumulating }

/-- Two states differ at most in the cells of `BUF` at and above `BUFLEN` (R26). -/
abbrev sameButStale (s t : State) : Prop :=
  { s with buf := freeCells 0 } = { t with buf := freeCells 0 } ∧ tail s = tail t

/-- The outcomes of two steps are next states that are related, or both are not next states. -/
def bothNext (R : State → State → Prop) (x y : Host.Outcome State Fault Refusal) : Prop :=
  ∃ s t, x = .next s ∧ y = .next t ∧ R s t

end Sys2Proof.Machine
end

