-- ==== Sys2Proof/Certificates/Slice0/Obligations.lean ====
section
/-! DEFINITION. The statements about the model. Each says which rules of spec/ it formalises. Where the cells of `BUF`
become unspecified, the statement says of them only that some cells stand there. -/

open Sys2Proof Sys2Proof.Machine

/-! ## The command word -/

/-- Words written out from R71, R72 and R84 decode to the commands they stand for, and neighbours of theirs do not. -/
def Obligations.WordsOfTheSpecDecode : Prop :=
  decode 0x01000100 = .ok (.init 256) ∧ decode 0x01000200 = .ok (.init 512) ∧
  decode 0x01000180 = .ok (.init 384) ∧ decode 0x02000061 = .ok (.update 0x61) ∧
  decode 0x03000000 = .ok .digest ∧ decode 0x04000000 = .ok .hexdigest ∧
  decode 0x01010100 = .error .reservedBits ∧ decode 0x02000100 = .error .updateHighByte ∧
  decode 0x03000001 = .error .digestOperand ∧ decode 0x04000200 = .error .hexdigestOperand ∧
  decode 0x00000000 = .error .unassignedOpcode ∧ decode 0x05000000 = .error .unassignedOpcode

/-- Decoder and encoder agree in both directions: a word decodes to a command exactly when it is that command's word,
for every operand (R71 to R76). -/
def Obligations.DecodeIsTheInverseOfEncode : Prop :=
  ∀ (w : CmdWord) (i : Instr), decode w = .ok i ↔ w = encode i

/-- The match and mask pairs of R76 select exactly the words of each command. -/
def Obligations.DecodeByMatchAndMask : Prop :=
  ∀ w : CmdWord,
    (w &&& 0xFFFF0000 = 0x01000000 ↔ decode w = .ok (.init (w.extractLsb' 0 16))) ∧
    (w &&& 0xFFFFFF00 = 0x02000000 ↔ decode w = .ok (.update (w.extractLsb' 0 8))) ∧
    (w &&& 0xFFFFFFFF = 0x03000000 ↔ decode w = .ok .digest) ∧
    (w &&& 0xFFFFFFFF = 0x04000000 ↔ decode w = .ok .hexdigest) ∧
    (w &&& 0xFFFF0000 ≠ 0x01000000 → w &&& 0xFFFFFF00 ≠ 0x02000000 →
      w &&& 0xFFFFFFFF ≠ 0x03000000 → w &&& 0xFFFFFFFF ≠ 0x04000000 → ∃ e, decode w = .error e)

/-- The illegal words are exactly those R77 lists, each of them raises IllegalCommand (R182, R186), and the all-zero and
the all-ones words are among them. -/
def Obligations.IllegalWordsRaiseIllegalCommand : Prop :=
  (∀ w : CmdWord, (∃ e, decode w = .error e) ↔
    (w.extractLsb' 24 8 = 0 ∨ 5 ≤ (w.extractLsb' 24 8).toNat ∨ w.extractLsb' 16 8 ≠ 0 ∨
      (w.extractLsb' 24 8 = 2 ∧ w.extractLsb' 8 8 ≠ 0) ∨
      ((w.extractLsb' 24 8 = 3 ∨ w.extractLsb' 24 8 = 4) ∧ w.extractLsb' 0 16 ≠ 0))) ∧
  (∀ (w : CmdWord) (e : IllegalWord) (s : State), decode w = .error e →
    runWord w s = .next { s with
      fault := if s.fault = .none then .illegalCommand else s.fault
      rsp := some ⟨if s.fault = .none then 2 else statusByte s.fault, []⟩ }) ∧
  (∃ e, decode 0 = .error e) ∧ (∃ e, decode 0xFFFFFFFF = .error e)

/-! ## Steps and ports -/

/-- A word accepted at the command port and decoded to a command runs as exactly that command, on the state in which
its port event has passed (R70, R160). -/
def Obligations.StepRunsTheDecodedCommand : Prop :=
  ∀ (s : State) (p : Pins) (rest : List Pins) (i : Instr),
    s.inputs = p :: rest → p.rst = false → s.rsp = none → p.cmdValid = true → decode p.cmdWord = .ok i →
    step s = exec i { s with inputs := rest }

/-- An accepted word that is the word of no command raises IllegalCommand: FAULT gets the code 2 if it was 0, and
nothing else but the response is written; it is never a no-op and never another command (R182). -/
def Obligations.AcceptedIllegalWordFaults : Prop :=
  ∀ (s : State) (p : Pins) (rest : List Pins),
    s.inputs = p :: rest → p.rst = false → s.rsp = none → p.cmdValid = true → (∀ i, p.cmdWord ≠ encode i) →
    step s = .next { s with
      inputs := rest
      fault := if s.fault = .none then .illegalCommand else s.fault
      rsp := some ⟨if s.fault = .none then 2 else statusByte s.fault, []⟩ }

/-- The reset event (R200, R204): whatever the state before, faulted or with a response waiting, and whatever else the
pins drive, every register gets its value of R36, MSG is empty, there is no response and `cmd_ready` is asserted. -/
def Obligations.ResetEventWritesEveryRegister : Prop :=
  ∀ (s : State) (p : Pins) (rest : List Pins), s.inputs = p :: rest → p.rst = true →
    ∃ t, step s = .next t ∧ t.h = 0 ∧ t.n = 0 ∧ t.sigma = 0 ∧ t.buflen = 0 ∧ t.ds = .d512 ∧
      t.phase = .accumulating ∧ t.fault = .none ∧ t.msg = [] ∧ t.rsp = none ∧ t.inputs = rest ∧ cmdReady t = true

/-- The state right after reset holds the values of R36 (`BUF` is unspecified there and the statement says nothing of
it), and its `H` is the IV of the 512-bit mode. -/
def Obligations.ResetStateHoldsTheDefaults : Prop :=
  State.reset.h = 0 ∧ State.reset.h = iv .d512 ∧ State.reset.n = 0 ∧ State.reset.sigma = 0 ∧
  State.reset.buflen = 0 ∧ State.reset.ds = .d512 ∧ State.reset.phase = .accumulating ∧
  State.reset.fault = .none ∧ State.reset.msg = [] ∧ State.reset.rsp = none

/-- The port events without a command (R35, R70): while a response waits no command is accepted and nothing changes
until the host takes the response, which frees the port and changes nothing else; with no command presented, or with
nothing more to come from the host, nothing changes. The list of port events is the model's (log 1, log 16). -/
def Obligations.ResponseWaitsUntilTaken : Prop :=
  (∀ (s : State) (p : Pins) (rest : List Pins) (r : Response),
    s.inputs = p :: rest → p.rst = false → s.rsp = some r →
      step s = .next (if p.rspReady then { s with inputs := rest, rsp := none } else { s with inputs := rest })) ∧
  (∀ (s : State) (p : Pins) (rest : List Pins),
    s.inputs = p :: rest → p.rst = false → s.rsp = none → p.cmdValid = false →
      step s = .next { s with inputs := rest }) ∧
  (∀ s : State, s.inputs = [] → step s = .next s)

/-- What the output pins show (R70): `cmd_ready` and `rsp_valid` say whether a response waits, a waiting response is on
the response pins with `rsp_data[8i+7 : 8i]` its payload byte `i`, and every state whose response has a form of R78 can
be shown. Which pins are left open is log 3. -/
def Obligations.OutputPinsShowTheResponse : Prop :=
  (∀ (s : State) (o : Outputs), shows s o = true → s.rsp = none → o.cmdReady = true ∧ o.rspValid = false) ∧
  (∀ (s : State) (o : Outputs) (r : Response), shows s o = true → s.rsp = some r →
    o.cmdReady = false ∧ o.rspValid = true ∧ o.rspStatus = r.status ∧ o.rspLen.toNat = r.payload.length ∧
    ∀ (i : Nat) (hi : i < r.payload.length), o.rspData.extractLsb' (8 * i) 8 = r.payload[i]) ∧
  (∀ s : State, (∀ r, s.rsp = some r → r.wf = true) → ∃ o, shows s o = true)

/-- The engine never stops: every step from every state answers a next state (R206). -/
def Obligations.StepNeverStops : Prop :=
  ∀ s : State, ∃ t, step s = .next t

/-- Every accepted word gives exactly one response; its status byte is `zext_8(FAULT)` as the command leaves FAULT, one
of 0 to 3, and a status other than 0 comes with no payload (R70, R79). -/
def Obligations.EveryAcceptedWordIsAnswered : Prop :=
  (∀ (s : State) (w : CmdWord), portEvent s = .accepted w →
    ∃ t r, step s = .next t ∧ t.rsp = some r ∧ t.inputs = s.inputs.tail ∧
      r.status = t.fault.code.setWidth 8 ∧ r.status.toNat ≤ 3 ∧ (r.status ≠ 0 → r.payload = [])) ∧
  FaultCode.none.code = 0 ∧ FaultCode.invalidParameter.code = 1 ∧ FaultCode.illegalCommand.code = 2 ∧
  FaultCode.lengthOverflow.code = 3

/-- What a host that presents each command and takes its response drives through the port is the same as executing the
commands one after another (R61, R70, R85). The list of port events is the model's (log 1). -/
def Obligations.DrivingTheHostPortsRunsTheCommands : Prop :=
  ∀ (is : List Instr) (s : State) (rest : List Pins),
    s.rsp = none → s.inputs = driveAll (is.map .command) ++ rest →
    ∃ t, execAll is { s with inputs := rest } = .next t ∧
      Sys2Proof.core.run (2 * is.length) s = .next { t with rsp := none } ∧
      takenResponses (2 * is.length) s = execResponses is s

/-! ## The commands -/

/-- INIT (R151): with 256 or 512 it writes the initial values of that mode in every state, faulted or not; with any
other size it changes nothing but FAULT, if that was 0, and answers with it (R181, R186). -/
def Obligations.InitStartsAMessageOrFaults : Prop :=
  (∀ ds : BitVec 16, encode (.init ds) = 0x01000000 + ds.setWidth 32) ∧
  (∀ s : State, ∃ cells k, exec (.init 256) s = .next { s with
      h := rep 0x01, n := 0, sigma := 0, buf := cells, buflen := 0, ds := .d256, phase := .accumulating,
      fault := .none, rsp := some ⟨0, []⟩, msg := [], free := k }) ∧
  (∀ s : State, ∃ cells k, exec (.init 512) s = .next { s with
      h := 0, n := 0, sigma := 0, buf := cells, buflen := 0, ds := .d512, phase := .accumulating,
      fault := .none, rsp := some ⟨0, []⟩, msg := [], free := k }) ∧
  (∀ (s : State) (ds : BitVec 16), ds ≠ 256 → ds ≠ 512 →
    exec (.init ds) s = .next { s with
      fault := if s.fault = .none then .invalidParameter else s.fault
      rsp := some ⟨if s.fault = .none then 1 else statusByte s.fault, []⟩ })

/-- UPDATE (R152, R153): before the 64th byte of a block it writes one cell of BUF and BUFLEN; with the 64th byte it
absorbs the block `BUF[0..62] ++ [v]`, the step value being N from before. At the length limit it raises LengthOverflow,
and while a fault stands it is refused. -/
def Obligations.UpdateAppendsItsByte : Prop :=
  (∀ v : Byte, encode (.update v) = 0x02000000 + v.setWidth 32) ∧
  (∀ (s : State) (v : Byte), s.fault = .none → s.buflen ≠ 63 →
    exec (.update v) s = .next { s with
      buf := s.buf.set s.buflen.val v s.buflen.isLt, buflen := s.buflen + 1, phase := .accumulating,
      rsp := some ⟨0, []⟩, msg := s.msg ++ [v] }) ∧
  (∀ (s : State) (v : Byte) (b : Block), s.fault = .none → s.buflen = 63 →
    s.n ≠ BitVec.ofNat 512 (2 ^ 64 - 512) →
    (∀ i : Fin 64, byte b i = if i = 63 then v else s.buf[i]) →
    ∃ cells k, exec (.update v) s = .next { s with
      h := compressG (s.n.extractLsb' 0 64) s.h b, sigma := add512 s.sigma b, n := s.n + 512,
      buf := cells, buflen := 0, phase := .accumulating, rsp := some ⟨0, []⟩, msg := s.msg ++ [v], free := k }) ∧
  (∀ (s : State) (v : Byte), s.fault = .none → s.buflen = 63 → s.n = BitVec.ofNat 512 (2 ^ 64 - 512) →
    exec (.update v) s = .next { s with fault := .lengthOverflow, rsp := some ⟨3, []⟩ }) ∧
  (∀ (s : State) (v : Byte), s.fault ≠ .none →
    exec (.update v) s = .next { s with rsp := some ⟨statusByte s.fault, []⟩ })

/-- UPDATE at the length limit (R183): LengthOverflow, nothing appended, and DIGEST and HEXDIGEST are refused after
it; the digest could still be taken before. -/
def Obligations.UpdateAtTheLengthLimitFaults : Prop :=
  ∀ (s : State) (v : Byte), s.fault = .none → s.buflen = 63 → s.n = BitVec.ofNat 512 (2 ^ 64 - 512) →
    ∃ t, exec (.update v) s = .next t ∧ t = { s with fault := .lengthOverflow, rsp := some ⟨3, []⟩ } ∧
      exec .digest t = .next t ∧ exec .hexdigest t = .next t ∧
      ∃ u d, exec .digest s = .next u ∧ u.fault = .none ∧ u.rsp = some ⟨0, d⟩

/-- While FAULT is not 0 (R184): UPDATE, DIGEST and HEXDIGEST write nothing and answer with FAULT and no payload, and an
invalid INIT or an illegal word changes nothing either, since FAULT keeps the first cause; a successful INIT and reset
are the ways out. -/
def Obligations.FaultedEngineRefuses : Prop :=
  ∀ s : State, s.fault ≠ .none →
    (∀ v, exec (.update v) s = .next { s with rsp := some ⟨statusByte s.fault, []⟩ }) ∧
    exec .digest s = .next { s with rsp := some ⟨statusByte s.fault, []⟩ } ∧
    exec .hexdigest s = .next { s with rsp := some ⟨statusByte s.fault, []⟩ } ∧
    (∀ ds : BitVec 16, ds ≠ 256 → ds ≠ 512 →
      exec (.init ds) s = .next { s with rsp := some ⟨statusByte s.fault, []⟩ }) ∧
    (∀ w e, decode w = .error e → runWord w s = .next { s with rsp := some ⟨statusByte s.fault, []⟩ }) ∧
    (∀ ds : BitVec 16, ds = 256 ∨ ds = 512 → ∃ t, exec (.init ds) s = .next t ∧ t.fault = .none) ∧
    (resetEvent s).fault = .none

/-- DIGEST (R154, R155): it answers with the finalised chaining value, all 64 bytes or bytes 32 to 63, computed in
three applications of g on copies, and writes PHASE and nothing else; it is refused while a fault stands. R155 gives
the count for N of at most 2^64 − 512; above it, where no run is, the 64-bit sum is the model's choice (log 10). -/
def Obligations.DigestAnswersTheFinalisedValue : Prop :=
  encode .digest = 0x03000000 ∧
  (∀ s : State, s.fault ≠ .none → exec .digest s = .next { s with rsp := some ⟨statusByte s.fault, []⟩ }) ∧
  ∀ (s : State) (pd h1 h2 h3 : Block), s.fault = .none →
    pd = padBlock (s.buf.toList.take s.buflen.val) →
    h1 = compressG (s.n.extractLsb' 0 64) s.h pd →
    h2 = compressG 0 h1 (lenBlock (s.n.extractLsb' 0 64 + BitVec.ofNat 64 (8 * s.buflen.val))) →
    h3 = compressG 0 h2 (add512 s.sigma pd) →
    exec .digest s = .next { s with
      phase := .done
      rsp := some ⟨0, match s.ds with | .d512 => bytes h3 | .d256 => (bytes h3).drop 32⟩ }

/-- HEXDIGEST (R156): the payload is `Hex` of the payload that DIGEST gives in the same state, and the effects on the
state are the same; it is refused while a fault stands. -/
def Obligations.HexdigestSpellsTheDigest : Prop :=
  encode .hexdigest = 0x04000000 ∧
  (∀ s : State, s.fault ≠ .none → exec .hexdigest s = .next { s with rsp := some ⟨statusByte s.fault, []⟩ }) ∧
  ∀ s : State, s.fault = .none →
    ∃ d, exec .digest s = .next { s with phase := .done, rsp := some ⟨0, d⟩ } ∧
      exec .hexdigest s = .next { s with phase := .done, rsp := some ⟨0, hex d⟩ }

/-- The table of R78: status 0 comes with no payload for INIT and UPDATE, with 64 or 32 bytes for DIGEST and with 128
or 64 bytes for HEXDIGEST; any other status comes with no payload and is FAULT after the command. -/
def Obligations.ResponsesHaveTheLengthsOfTheTable : Prop :=
  ∀ (i : Instr) (s : State), ∃ t r, exec i s = .next t ∧ t.rsp = some r ∧
    (r.status = 0 → r.payload.length = match i, s.ds with
      | .init _, _ => 0
      | .update _, _ => 0
      | .digest, .d512 => 64
      | .digest, .d256 => 32
      | .hexdigest, .d512 => 128
      | .hexdigest, .d256 => 64) ∧
    (r.status ≠ 0 → r.payload = [] ∧ r.status = statusByte t.fault)

/-- Two digest requests in a row, of either kind and in either order, give the same answers and leave the same state
(R159, first row). -/
def Obligations.DigestTwiceIsTheSame : Prop :=
  ∀ s : State, s.fault = .none →
    ∃ t u, exec .digest s = .next t ∧ exec .digest t = .next t ∧
      exec .hexdigest s = .next u ∧ exec .hexdigest u = .next u ∧
      exec .hexdigest t = .next u ∧ exec .digest u = .next t

/-- A reset event and a successful INIT 512 leave the same values in the same registers (R201); of the unspecified
cells of BUF nothing is said. -/
def Obligations.ResetAndInit512Agree : Prop :=
  ∀ s : State, ∃ t, exec (.init 512) s = .next t ∧
    t.h = (resetEvent s).h ∧ t.n = (resetEvent s).n ∧ t.sigma = (resetEvent s).sigma ∧
    t.buflen = (resetEvent s).buflen ∧ t.ds = (resetEvent s).ds ∧ t.phase = (resetEvent s).phase ∧
    t.fault = (resetEvent s).fault ∧ t.msg = (resetEvent s).msg ∧ t.rsp = some ⟨0, []⟩ ∧ (resetEvent s).rsp = none

/-! ## The datapath -/

/-- The views of a block agree (R10, R51, R52): a word is the sum of its bytes, and the integer is the sum of the bytes
and the sum of the words. -/
def Obligations.ViewsOfABlockAgree : Prop :=
  ∀ b : Block,
    (∀ k : Fin 8, (word64 b k).toNat = ∑ t : Fin 8, (byte b ⟨8 * k.val + t.val, by omega⟩).toNat * 256 ^ t.val) ∧
    int512 b = ∑ i : Fin 64, (byte b i).toNat * 256 ^ i.val ∧
    int512 b = ∑ k : Fin 8, (word64 b k).toNat * 2 ^ (64 * k.val)

/-- Scan position `j` of word `k` is bit `7 − (j mod 8)` of byte `8k + 7 − floor(j / 8)` (R53). -/
def Obligations.ScanPositionsOfAWord : Prop :=
  ∀ (b : Block) (k : Fin 8) (j : Fin 64),
    (word64 b k).getLsbD (63 - j.val) =
      (byte b ⟨8 * k.val + 7 - j.val / 8, by omega⟩).getLsbD (7 - j.val % 8)

/-- PI is a permutation of 0..255 without fixed point, TAU is its closed form and an involution (R100, R101). The
values of the tables are general knowledge in the spec (log 11). -/
def Obligations.TablesPIAndTAU : Prop :=
  Function.Bijective (fun x => (romPI x).toFin) ∧ (∀ x, (romPI x).toFin ≠ x) ∧
  (∀ i : Fin 64, (romTAU i).val = 8 * (i.val % 8) + i.val / 8) ∧ (∀ i, romTAU (romTAU i) = i)

/-- IV(256) is 64 bytes 0x01 and IV(512) is 64 bytes 0x00 (R104). -/
def Obligations.InitialChainingValues : Prop :=
  ∀ i, byte (iv .d256) i = 0x01 ∧ byte (iv .d512) i = 0x00

/-- S acts on each byte by itself and fixes none (R111). That no byte is fixed is a property of the table PI, whose
values are general knowledge in the spec (log 11). -/
def Obligations.SubstitutionActsOnEachByte : Prop :=
  ∀ (a : Block) (i : Fin 64),
    byte (layerS a) i = romPI (byte a i).toFin ∧ byte (layerS a) i ≠ byte a i

/-- P is the scatter of R112; it is an involution, leaves the diagonal in place and commutes with S. That it
is an involution rests on the table TAU (C7; log 11, log 17). -/
def Obligations.PermutationScattersAndIsAnInvolution : Prop :=
  ∀ a : Block, (∀ i, byte (layerP a) (romTAU i) = byte a i) ∧ layerP (layerP a) = a ∧
    (∀ i : Fin 64, i.val % 9 = 0 → byte (layerP a) i = byte a i) ∧ layerS (layerP a) = layerP (layerS a)

/-- The word map l (R113): each set bit at scan position `j` contributes the mask `A[j]`, and the contributions are
xored; so l is linear and takes the word with only scan position `j` set to `A[j]`. It is not an involution
(C2). The masks are general knowledge in the spec (log 11). -/
def Obligations.WordMapXorsTheMasks : Prop :=
  (∀ u v : Word64, wordL (u ^^^ v) = wordL u ^^^ wordL v) ∧
  (∀ j : Fin 64, wordL (BitVec.twoPow 64 (63 - j.val)) = romA j) ∧ wordL 0 = 0 ∧
  wordL (wordL 0x8000000000000000) ≠ 0x8000000000000000

/-- L applies l to each word, word `k` of the result depending on word `k` of the operand only, and is linear (R114). -/
def Obligations.LinearLayerActsOnEachWord : Prop :=
  (∀ (a : Block) (k : Fin 8), word64 (layerL a) k = wordL (word64 a k)) ∧
  (∀ a b : Block, layerL (layerX a b) = layerX (layerL a) (layerL b))

/-- S, P, L and LPS are bijections on blocks and l is one on words (R116; a derived table of the spec). It rests on the
tables PI, TAU and A (log 11). -/
def Obligations.LayersAreBijections : Prop :=
  Function.Bijective layerS ∧ Function.Bijective layerP ∧ Function.Bijective wordL ∧
  Function.Bijective layerL ∧ Function.Bijective lps

/-- For every key the cipher E is a bijection on blocks (R132; derived in the spec, from tables of
log 11). -/
def Obligations.CipherIsABijection : Prop :=
  ∀ K : Block, Function.Bijective (cipherE K)

/-- The unrolled form of E (R131, derived in the spec from R130): thirteen round keys, twelve data states; `k i` is the
rule's `K_(i+1)`. -/
def Obligations.CipherUnrolled : Prop :=
  ∀ (k x : Nat → Block),
    (∀ i : Fin 12, k (i.val + 1) = lps (layerX (k i.val) (romC i)) ∧
      x (i.val + 1) = lps (layerX (k i.val) (x i.val))) →
    cipherE (k 0) (x 0) = layerX (k 12) (x 12)

/-- The key block (R81): the step value is xored little-endian into bytes 0 to 7; step value 0 leaves the block. -/
def Obligations.KeyBlockBytes : Prop :=
  ∀ (n : Word64) (h : Block),
    (∀ i : Fin 64, byte (keyBlock n h) i =
      if i.val < 8 then byte h i ^^^ n.extractLsb' (8 * i.val) 8 else byte h i) ∧
    keyBlock 0 h = h

/-- The compression function g (R140): the cipher keyed by LPS of the key block, with the feed-forward of both `h` and
`m`; with step value 0 the key is LPS of `h`. LPS is S, then P, then L (R115), and X is bytewise (R110). -/
def Obligations.CompressionFeedsForwardBothBlocks : Prop :=
  (∀ (n : Word64) (h m : Block), compressG n h m = layerX (layerX (cipherE (lps (keyBlock n h)) m) h) m) ∧
  (∀ h m : Block, compressG 0 h m = layerX (layerX (cipherE (lps h) m) h) m) ∧
  (∀ a : Block, lps a = layerL (layerP (layerS a))) ∧
  (∀ (a b : Block) (i : Fin 64), byte (layerX a b) i = byte a i ^^^ byte b i)

/-- The padded block (R82): the tail, one byte 0x01, zero bytes. -/
def Obligations.PaddedBlockBytes : Prop :=
  ∀ (t : List Byte), t.length ≤ 63 → ∀ i : Fin 64,
    byte (padBlock t) i =
      if h : i.val < t.length then t[i.val] else if i.val = t.length then 0x01 else 0x00

/-- The length block (R83): the bytes of `n` in bytes 0 to 7, zero elsewhere; as an integer it is `n`. -/
def Obligations.LengthBlockIsItsNumber : Prop :=
  ∀ n : Word64,
    (∀ i : Fin 64, byte (lenBlock n) i = if i.val < 8 then n.extractLsb' (8 * i.val) 8 else 0) ∧
    int512 (lenBlock n) = n.toNat

/-- The bytewise adder with its carry is the addition of 512-bit integers, wrapping (R144). -/
def Obligations.AdderAddsIntegers : Prop :=
  ∀ a b : Block, add512 a b = blk512 (int512 a + int512 b)

/-- `Hex` (R80): two characters a byte, high nibble first, from the lower-case ASCII digits. High nibble first is
general knowledge in the spec (D11; log 12). -/
def Obligations.HexSpellsNibbles : Prop :=
  ∀ (d chars : List Byte),
    (hex d).length = 2 * d.length ∧
    (chars = [0x30, 0x31, 0x32, 0x33, 0x34, 0x35, 0x36, 0x37, 0x38, 0x39, 0x61, 0x62, 0x63, 0x64, 0x65, 0x66] →
      ∀ (i : Nat) (hi : i < d.length),
        (hex d)[2 * i]? = chars[d[i].toNat / 16]? ∧ (hex d)[2 * i + 1]? = chars[d[i].toNat % 16]?)

/-! ## Invariants and whole-machine rules -/

/-- The state after reset meets the invariant of R34 (R36; derived in the spec). -/
def Obligations.ResetMeetsTheInvariant : Prop := State.reset.Inv

/-- Every step keeps the invariant of R34, whatever the host drives (R34 is derived in the spec). -/
def Obligations.StepKeepsTheInvariant : Prop :=
  ∀ s t : State, s.Inv → step s = .next t → t.Inv

/-- Under the invariant the bit counter stays below 2^64, is a multiple of 512, and the message's bit count fits the
length block (R23, R142, R145; derived in the spec). -/
def Obligations.BitCounterStaysBelowTwoPow64 : Prop :=
  ∀ s : State, s.Inv → s.n.toNat < 2 ^ 64 ∧ 512 ∣ s.n.toNat ∧ s.n.toNat + 8 * s.buflen.val < 2 ^ 64 ∧
    (stepValue s).toNat = s.n.toNat ∧ s.n.toNat + 8 * s.buflen.val = 8 * s.msg.length

/-- The correctness of the incremental engine (R158): with no fault, DIGEST answers with `Streebog(ds, MSG)` and
HEXDIGEST with `Hex` of it. -/
def Obligations.DigestIsStreebogOfTheMessage : Prop :=
  ∀ s : State, s.Inv → s.fault = .none →
    ∃ d, streebog s.ds s.msg = some d ∧
      exec .digest s = .next { s with phase := .done, rsp := some ⟨0, d⟩ } ∧
      exec .hexdigest s = .next { s with phase := .done, rsp := some ⟨0, hex d⟩ }

/-- From any state at all, INIT, the bytes of a message and DIGEST answer with `Streebog` of that message (R150, R158,
R85). -/
def Obligations.HashFromAnyState : Prop :=
  ∀ (s : State) (m : DigestMode) (data : List Byte), data.length ≤ Config.maxMessageBytes →
    ∃ t d, execAll (.init (BitVec.ofNat 16 m.size) :: data.map .update ++ [.digest]) s = .next t ∧
      streebog m data = some d ∧ t.rsp = some ⟨0, d⟩

/-- A digest, further appends and another digest: both answers are what hashing from scratch gives (R32, R158, R159). -/
def Obligations.DigestAppendDigest : Prop :=
  ∀ (s : State) (a b : List Byte), s.Inv → s.fault = .none →
    s.msg.length + a.length + b.length ≤ Config.maxMessageBytes →
    ∃ t u d e, execAll (a.map .update ++ [.digest]) s = .next t ∧ streebog s.ds (s.msg ++ a) = some d ∧
      t.rsp = some ⟨0, d⟩ ∧ execAll (b.map .update ++ [.digest]) t = .next u ∧
      streebog s.ds (s.msg ++ a ++ b) = some e ∧ u.rsp = some ⟨0, e⟩

/-- Only INIT and reset clear FAULT (R187): a successful INIT and the reset event leave it 0; any other step of a
faulted engine leaves every register, FAULT among them, as it was. -/
def Obligations.FaultIsClearedByInitAndResetOnly : Prop :=
  (∀ s t : State, portEvent s = .reset → step s = .next t → t.fault = .none) ∧
  (∀ (s t : State) (m : DigestMode), portEvent s = .accepted (encode (.init (BitVec.ofNat 16 m.size))) →
    step s = .next t → t.fault = .none) ∧
  (∀ s t : State, s.fault ≠ .none → step s = .next t → portEvent s ≠ .reset →
    (∀ m : DigestMode, portEvent s ≠ .accepted (encode (.init (BitVec.ofNat 16 m.size)))) →
    { t with inputs := s.inputs, rsp := s.rsp } = s)

/-- `DS` is written by reset and by a successful INIT only (R27). -/
def Obligations.ModeChangesOnlyByInitOrReset : Prop :=
  ∀ s t : State, step s = .next t → t.ds ≠ s.ds →
    portEvent s = .reset ∨
    portEvent s = .accepted (encode (.init (BitVec.ofNat 16 t.ds.size)))

/-- `H`, `N` and `SIGMA` are written by reset, by a successful INIT and by an UPDATE that completes a block only (R22,
R23, R24, R37). -/
def Obligations.ChainIsWrittenOnlyByInitResetAndFullBlocks : Prop :=
  ∀ s t : State, step s = .next t → ¬ (t.h = s.h ∧ t.n = s.n ∧ t.sigma = s.sigma) →
    portEvent s = .reset ∨
    (∃ m : DigestMode, portEvent s = .accepted (encode (.init (BitVec.ofNat 16 m.size)))) ∨
    (∃ v, portEvent s = .accepted (encode (.update v)) ∧ s.buflen = 63 ∧ s.fault = .none)

/-- `PHASE` after a step (R28, R157): a completed digest leaves DONE, a successful UPDATE, INIT or reset leaves
ACCUMULATING, and anything else leaves it unchanged. -/
def Obligations.PhaseFollowsTheTransitionTable : Prop :=
  ∀ (s : State), (∃ t, step s = .next t ∧ match portEvent s with
    | .reset => t.phase = .accumulating
    | .accepted w => match decode w with
      | .ok .digest => t.phase = if s.fault = .none then .done else s.phase
      | .ok .hexdigest => t.phase = if s.fault = .none then .done else s.phase
      | .ok (.update _) =>
        t.phase = if s.fault = .none ∧ ¬ (s.buflen = 63 ∧ s.n = BitVec.ofNat 512 (2 ^ 64 - 512))
          then .accumulating else s.phase
      | .ok (.init ds) => t.phase = if ds = 256 ∨ ds = 512 then .accumulating else s.phase
      | .error _ => t.phase = s.phase
    | _ => t.phase = s.phase)

/-- `PHASE` has no effect on any response or other register (R28). -/
def Obligations.PhaseHasNoEffect : Prop :=
  ∀ s t : State, sameButPhase s t → bothNext sameButPhase (step s) (step t)

/-- The ghost `MSG` has no effect on anything but itself (R33: the hardware does not hold it). -/
def Obligations.MessageIsGhost : Prop :=
  ∀ s t : State, sameButMsg s t → bothNext sameButMsg (step s) (step t)

/-- No rule reads a cell of `BUF` at or above `BUFLEN` (R26, D8): two engines that differ only there answer alike and
go on differing only there. -/
def Obligations.StaleCellsAreNeverRead : Prop :=
  ∀ s t : State, sameButStale s t → bothNext sameButStale (step s) (step t)
end

