-- ==== Sys2Proof/Laws/Bytes.lean ====
section
/-! SUPPORT. The byte and word views of a block: what each constructor of a block gives back, and that a block is
its bytes. -/

namespace Sys2Proof.Machine

/-- A packed number is below the power its digits span. -/
theorem packWords_lt {w : Nat} (l : List (BitVec w)) : packWords l < 2 ^ (w * l.length) := by
  induction l with
  | nil => simp [packWords]
  | cons x xs ih =>
    have hx := x.isLt
    have hpow : 2 ^ (w * (x :: xs).length) = 2 ^ w * 2 ^ (w * xs.length) := by
      rw [List.length_cons, Nat.mul_succ, Nat.pow_add, Nat.mul_comm]
    rw [hpow, packWords]
    calc x.toNat + 2 ^ w * packWords xs < 2 ^ w + 2 ^ w * packWords xs := by omega
      _ = 2 ^ w * (packWords xs + 1) := by ring
      _ ≤ 2 ^ w * 2 ^ (w * xs.length) := Nat.mul_le_mul_left _ ih

/-- Digit `i` of a packed number is the `i`-th word. -/
theorem packWords_digit {w : Nat} (l : List (BitVec w)) (i : Nat) (h : i < l.length) :
    packWords l / 2 ^ (w * i) % 2 ^ w = (l[i]).toNat := by
  induction l generalizing i with
  | nil => simp at h
  | cons x xs ih =>
    have hx := x.isLt
    cases i with
    | zero => simp [packWords, Nat.mod_eq_of_lt hx]
    | succ i =>
      have hdiv : packWords (x :: xs) / 2 ^ (w * (i + 1)) = packWords xs / 2 ^ (w * i) := by
        rw [Nat.mul_succ, Nat.add_comm, Nat.pow_add, ← Nat.div_div_eq_div_mul, packWords,
          Nat.add_mul_div_left _ _ (Nat.two_pow_pos w), Nat.div_eq_of_lt hx, Nat.zero_add]
      rw [hdiv, List.getElem_cons_succ]
      exact ih i (by simpa using h)

/-- A field of a block made from a packed list is the word of that position. -/
theorem extract_packWords {w n : Nat} (l : List (BitVec w)) (hl : w * l.length = n) (i : Nat) (h : i < l.length) :
    (BitVec.ofNat n (packWords l)).extractLsb' (w * i) w = l[i] := by
  subst hl
  apply BitVec.eq_of_toNat_eq
  rw [BitVec.extractLsb'_toNat, BitVec.toNat_ofNat, Nat.mod_eq_of_lt (packWords_lt l), Nat.shiftRight_eq_div_pow]
  exact packWords_digit l i h

/-- Byte `i` of the block built from `f` is `f i`. -/
@[simp] theorem byte_ofBytes (f : Fin 64 → Byte) (i : Fin 64) : byte (ofBytes f) i = f i := by
  have hl : ((List.finRange 64).map f).length = 64 := by simp
  unfold byte ofBytes
  rw [extract_packWords _ (by rw [hl]) i.val (by rw [hl]; exact i.isLt), List.getElem_map, List.getElem_finRange]
  rfl

/-- Word `k` of the block built from `f` is `f k`. -/
@[simp] theorem word64_ofWords (f : Fin 8 → Word64) (k : Fin 8) : word64 (ofWords f) k = f k := by
  have hl : ((List.finRange 8).map f).length = 8 := by simp
  unfold word64 ofWords
  rw [extract_packWords _ (by rw [hl]) k.val (by rw [hl]; exact k.isLt), List.getElem_map, List.getElem_finRange]
  rfl

/-- A block is its 64 bytes. -/
theorem block_ext {a b : Block} (h : ∀ i, byte a i = byte b i) : a = b := by
  apply BitVec.eq_of_getLsbD_eq
  intro j hj
  have hb := congrArg (fun x : Byte => x.getLsbD (j % 8)) (h ⟨j / 8, by omega⟩)
  have hm : j % 8 < 8 := Nat.mod_lt _ (by decide)
  simpa [byte, BitVec.getLsbD_extractLsb', hm, Nat.div_add_mod] using hb

/-- A block is its 8 words. -/
theorem block_ext_words {a b : Block} (h : ∀ k, word64 a k = word64 b k) : a = b := by
  apply BitVec.eq_of_getLsbD_eq
  intro j hj
  have hb := congrArg (fun x : Word64 => x.getLsbD (j % 64)) (h ⟨j / 64, by omega⟩)
  have hm : j % 64 < 64 := Nat.mod_lt _ (by decide)
  simpa [word64, BitVec.getLsbD_extractLsb', hm, Nat.div_add_mod] using hb

/-- Rebuilding a block from its bytes gives it back. -/
@[simp] theorem ofBytes_byte (b : Block) : ofBytes (byte b) = b := block_ext fun i => by simp

/-- Rebuilding a block from its words gives it back. -/
@[simp] theorem ofWords_word64 (b : Block) : ofWords (word64 b) = b := block_ext_words fun k => by simp

/-- The exclusive-or of blocks is bytewise. -/
@[simp] theorem byte_xor (a b : Block) (i : Fin 64) : byte (a ^^^ b) i = byte a i ^^^ byte b i := by
  apply BitVec.eq_of_getLsbD_eq
  intro j hj
  simp [byte, hj]

/-- The exclusive-or of blocks is wordwise. -/
@[simp] theorem word64_xor (a b : Block) (k : Fin 8) : word64 (a ^^^ b) k = word64 a k ^^^ word64 b k := by
  apply BitVec.eq_of_getLsbD_eq
  intro j hj
  simp [word64, hj]

@[simp] theorem byte_zero (i : Fin 64) : byte 0 i = 0 := by simp [byte]

@[simp] theorem byte_rep (v : Byte) (i : Fin 64) : byte (rep v) i = v := by simp [rep]

@[simp] theorem byte_ofList (bs : List Byte) (i : Fin 64) : byte (ofList bs) i = bs.getD i.val 0 := by simp [ofList]

@[simp] theorem length_bytes (b : Block) : (bytes b).length = 64 := by simp [bytes]

@[simp] theorem getElem_bytes (b : Block) (i : Nat) (h : i < (bytes b).length) :
    (bytes b)[i] = byte b ⟨i, by simpa using h⟩ := by simp [bytes]

/-- The block of a block's bytes is the block. -/
@[simp] theorem ofList_bytes (b : Block) : ofList (bytes b) = b :=
  block_ext fun i => by simp [List.getD_eq_getElem?_getD]

/-- The bytes of the block of 64 bytes are those bytes. -/
theorem bytes_ofList (bs : List Byte) (h : bs.length = 64) : bytes (ofList bs) = bs := by
  apply List.ext_getElem
  · simp [h]
  · intro i h1 h2
    simp [List.getD_eq_getElem?_getD, h2]

@[simp] theorem length_le64 (v : Word64) : (le64 v).length = 8 := by simp [le64]

@[simp] theorem length_hex (d : List Byte) : (hex d).length = 2 * d.length := by
  induction d with
  | nil => rfl
  | cons b d ih => simp_all [hex, hexByte]; omega

/-- The length of a digest is that of its mode (R78). -/
theorem length_digestOf (m : DigestMode) (hf : Block) :
    (digestOf m hf).length = match m with | .d512 => 64 | .d256 => 32 := by
  cases m <;> simp [digestOf]

/-- Only 256 and 512 name a mode, each its own. -/
theorem modeOfSize_eq_some {ds : BitVec 16} {m : DigestMode} :
    modeOfSize ds = some m ↔ ds = BitVec.ofNat 16 m.size := by
  cases m <;> simp only [modeOfSize, DigestMode.size] <;> split <;> simp_all

/-- A size that names no mode is neither 256 nor 512. -/
theorem modeOfSize_eq_none {ds : BitVec 16} : modeOfSize ds = none ↔ ds ≠ 256 ∧ ds ≠ 512 := by
  simp only [modeOfSize]
  split <;> simp_all

end Sys2Proof.Machine
end

