-- ==== Sys2Proof/Laws/Decode.lean ====
section
/-! SUPPORT. The fields of a command word put together from its fields, and back. -/

namespace Sys2Proof

section
variable (op rsv : BitVec 8) (imm : BitVec 16)

/-- A bit of a word put together from its fields (R71). -/
theorem getLsbD_cmdWord (i : Nat) :
    (cmdWord op rsv imm).getLsbD i =
      if i < 16 then imm.getLsbD i else if i < 24 then rsv.getLsbD (i - 16) else op.getLsbD (i - 24) := by
  have h1 : ∀ k, 16 ≤ k → imm.getLsbD k = false := fun k hk => BitVec.getLsbD_of_ge _ _ hk
  have h2 : ∀ k, 8 ≤ k → rsv.getLsbD k = false := fun k hk => BitVec.getLsbD_of_ge _ _ hk
  have h3 : ∀ k, 8 ≤ k → op.getLsbD k = false := fun k hk => BitVec.getLsbD_of_ge _ _ hk
  simp only [cmdWord, BitVec.getLsbD_or, BitVec.getLsbD_shiftLeft, BitVec.getLsbD_setWidth]
  by_cases a : i < 16
  · simp [a, show i < 24 by omega, show i < 32 by omega]
  · by_cases b : i < 24
    · simp [a, b, h1 i (by omega), show i < 32 by omega]
      omega
    · by_cases c : i < 32
      · simp [a, b, c, h1 i (by omega), h2 (i - 16) (by omega)]
        omega
      · simp [a, b, c, h3 (i - 24) (by omega)]

@[simp] theorem opField_cmdWord : opField (cmdWord op rsv imm) = op := by
  apply BitVec.eq_of_getLsbD_eq
  intro i hi
  simp [opField, getLsbD_cmdWord, hi, show ¬ 24 + i < 16 by omega]

@[simp] theorem rsvField_cmdWord : rsvField (cmdWord op rsv imm) = rsv := by
  apply BitVec.eq_of_getLsbD_eq
  intro i hi
  simp [rsvField, getLsbD_cmdWord, hi, show 16 + i < 24 by omega]

@[simp] theorem immField_cmdWord : immField (cmdWord op rsv imm) = imm := by
  apply BitVec.eq_of_getLsbD_eq
  intro i hi
  simp [immField, getLsbD_cmdWord, hi]

@[simp] theorem immHigh_cmdWord : immHigh (cmdWord op rsv imm) = imm.extractLsb' 8 8 := by
  apply BitVec.eq_of_getLsbD_eq
  intro i hi
  simp [immHigh, getLsbD_cmdWord, hi, show 8 + i < 16 by omega]

@[simp] theorem immLow_cmdWord : immLow (cmdWord op rsv imm) = imm.extractLsb' 0 8 := by
  apply BitVec.eq_of_getLsbD_eq
  intro i hi
  simp [immLow, getLsbD_cmdWord, hi, show i < 16 by omega]

end

/-- A word is its three fields (R71). -/
theorem cmdWord_fields (w : CmdWord) : cmdWord (opField w) (rsvField w) (immField w) = w := by
  apply BitVec.eq_of_getLsbD_eq
  intro i hi
  rw [getLsbD_cmdWord]
  simp only [opField, rsvField, immField, BitVec.getLsbD_extractLsb']
  split
  · simp [*]
  · split
    · simp [show i - 16 < 8 by omega, show 16 + (i - 16) = i by omega]
    · simp [show i - 24 < 8 by omega, show 24 + (i - 24) = i by omega]

/-- `IMM` with a zero high byte is its low byte (R74). -/
theorem immField_of_high_zero (w : CmdWord) (h : immHigh w = 0) : immField w = (immLow w).setWidth 16 := by
  apply BitVec.eq_of_getLsbD_eq
  intro i hi
  have hb := congrArg (fun x : BitVec 8 => x.getLsbD (i - 8)) h
  simp only [immHigh, immField, immLow, BitVec.getLsbD_extractLsb', BitVec.getLsbD_setWidth] at hb ⊢
  by_cases a : i < 8
  · simp [a, hi]
  · simpa [a, hi, show i - 8 < 8 by omega, show 8 + (i - 8) = i by omega] using hb

/-- The whole 32-bit number of a table row is its word. -/
theorem tableWord_toNat (w : CmdWord) : tableWord 32 w.toNat = w := by
  apply BitVec.eq_of_toNat_eq
  have := w.isLt
  simp only [tableWord, BitVec.toNat_ofNat]
  omega

end Sys2Proof
end

