-- ==== Sys2Proof/Laws/State.lean ====
section
/-! SUPPORT. What each operation on the state does to each register, one lemma per register and operation, so that no
proof unfolds a record update. -/

namespace Sys2Proof.Machine

section
variable (st : Byte) (pl : List Byte) (s : State)

@[simp] theorem respond_h : (respond st pl s).h = s.h := rfl
@[simp] theorem respond_n : (respond st pl s).n = s.n := rfl
@[simp] theorem respond_sigma : (respond st pl s).sigma = s.sigma := rfl
@[simp] theorem respond_buf : (respond st pl s).buf = s.buf := rfl
@[simp] theorem respond_buflen : (respond st pl s).buflen = s.buflen := rfl
@[simp] theorem respond_ds : (respond st pl s).ds = s.ds := rfl
@[simp] theorem respond_phase : (respond st pl s).phase = s.phase := rfl
@[simp] theorem respond_fault : (respond st pl s).fault = s.fault := rfl
@[simp] theorem respond_rsp : (respond st pl s).rsp = some ⟨st, pl⟩ := rfl
@[simp] theorem respond_msg : (respond st pl s).msg = s.msg := rfl
@[simp] theorem respond_inputs : (respond st pl s).inputs = s.inputs := rfl
@[simp] theorem respond_free : (respond st pl s).free = s.free := rfl

end

section
variable (c : FaultCode) (s : State)

@[simp] theorem raise_h : (raise c s).h = s.h := rfl
@[simp] theorem raise_n : (raise c s).n = s.n := rfl
@[simp] theorem raise_sigma : (raise c s).sigma = s.sigma := rfl
@[simp] theorem raise_buf : (raise c s).buf = s.buf := rfl
@[simp] theorem raise_buflen : (raise c s).buflen = s.buflen := rfl
@[simp] theorem raise_ds : (raise c s).ds = s.ds := rfl
@[simp] theorem raise_phase : (raise c s).phase = s.phase := rfl
@[simp] theorem raise_fault : (raise c s).fault = s.fault.latch c := rfl
@[simp] theorem raise_rsp : (raise c s).rsp = some ⟨statusByte (s.fault.latch c), []⟩ := rfl
@[simp] theorem raise_msg : (raise c s).msg = s.msg := rfl
@[simp] theorem raise_inputs : (raise c s).inputs = s.inputs := rfl
@[simp] theorem raise_free : (raise c s).free = s.free := rfl

end

section
variable (s : State)

@[simp] theorem refuse_h : (refuse s).h = s.h := rfl
@[simp] theorem refuse_n : (refuse s).n = s.n := rfl
@[simp] theorem refuse_sigma : (refuse s).sigma = s.sigma := rfl
@[simp] theorem refuse_buf : (refuse s).buf = s.buf := rfl
@[simp] theorem refuse_buflen : (refuse s).buflen = s.buflen := rfl
@[simp] theorem refuse_ds : (refuse s).ds = s.ds := rfl
@[simp] theorem refuse_phase : (refuse s).phase = s.phase := rfl
@[simp] theorem refuse_fault : (refuse s).fault = s.fault := rfl
@[simp] theorem refuse_rsp : (refuse s).rsp = some ⟨statusByte s.fault, []⟩ := rfl
@[simp] theorem refuse_msg : (refuse s).msg = s.msg := rfl
@[simp] theorem refuse_inputs : (refuse s).inputs = s.inputs := rfl
@[simp] theorem refuse_free : (refuse s).free = s.free := rfl

end

section
variable (s : State)

@[simp] theorem unspecifyBuf_h : (unspecifyBuf s).h = s.h := rfl
@[simp] theorem unspecifyBuf_n : (unspecifyBuf s).n = s.n := rfl
@[simp] theorem unspecifyBuf_sigma : (unspecifyBuf s).sigma = s.sigma := rfl
@[simp] theorem unspecifyBuf_buf : (unspecifyBuf s).buf = freeCells s.free := rfl
@[simp] theorem unspecifyBuf_buflen : (unspecifyBuf s).buflen = s.buflen := rfl
@[simp] theorem unspecifyBuf_ds : (unspecifyBuf s).ds = s.ds := rfl
@[simp] theorem unspecifyBuf_phase : (unspecifyBuf s).phase = s.phase := rfl
@[simp] theorem unspecifyBuf_fault : (unspecifyBuf s).fault = s.fault := rfl
@[simp] theorem unspecifyBuf_rsp : (unspecifyBuf s).rsp = s.rsp := rfl
@[simp] theorem unspecifyBuf_msg : (unspecifyBuf s).msg = s.msg := rfl
@[simp] theorem unspecifyBuf_inputs : (unspecifyBuf s).inputs = s.inputs := rfl
@[simp] theorem unspecifyBuf_free : (unspecifyBuf s).free = s.free + 1 := rfl

end

section
variable (v : Byte) (s : State)

@[simp] theorem putCell_h : (putCell v s).h = s.h := rfl
@[simp] theorem putCell_n : (putCell v s).n = s.n := rfl
@[simp] theorem putCell_sigma : (putCell v s).sigma = s.sigma := rfl
@[simp] theorem putCell_buf : (putCell v s).buf = s.buf.set s.buflen.val v s.buflen.isLt := rfl
@[simp] theorem putCell_buflen : (putCell v s).buflen = s.buflen := rfl
@[simp] theorem putCell_ds : (putCell v s).ds = s.ds := rfl
@[simp] theorem putCell_phase : (putCell v s).phase = s.phase := rfl
@[simp] theorem putCell_fault : (putCell v s).fault = s.fault := rfl
@[simp] theorem putCell_rsp : (putCell v s).rsp = s.rsp := rfl
@[simp] theorem putCell_msg : (putCell v s).msg = s.msg := rfl
@[simp] theorem putCell_inputs : (putCell v s).inputs = s.inputs := rfl
@[simp] theorem putCell_free : (putCell v s).free = s.free := rfl

end

section
variable (b : Block) (s : State)

@[simp] theorem absorb_h : (absorb b s).h = compressG (stepValue s) s.h b := rfl
@[simp] theorem absorb_n : (absorb b s).n = addBits s.n 512 := rfl
@[simp] theorem absorb_sigma : (absorb b s).sigma = add512 s.sigma b := rfl
@[simp] theorem absorb_buf : (absorb b s).buf = s.buf := rfl
@[simp] theorem absorb_buflen : (absorb b s).buflen = s.buflen := rfl
@[simp] theorem absorb_ds : (absorb b s).ds = s.ds := rfl
@[simp] theorem absorb_phase : (absorb b s).phase = s.phase := rfl
@[simp] theorem absorb_fault : (absorb b s).fault = s.fault := rfl
@[simp] theorem absorb_rsp : (absorb b s).rsp = s.rsp := rfl
@[simp] theorem absorb_msg : (absorb b s).msg = s.msg := rfl
@[simp] theorem absorb_inputs : (absorb b s).inputs = s.inputs := rfl
@[simp] theorem absorb_free : (absorb b s).free = s.free := rfl

end

section
variable (m : DigestMode) (s : State)

@[simp] theorem construct_h : (construct m s).h = iv m := rfl
@[simp] theorem construct_n : (construct m s).n = 0 := rfl
@[simp] theorem construct_sigma : (construct m s).sigma = 0 := rfl
@[simp] theorem construct_buf : (construct m s).buf = freeCells s.free := rfl
@[simp] theorem construct_buflen : (construct m s).buflen = 0 := rfl
@[simp] theorem construct_ds : (construct m s).ds = m := rfl
@[simp] theorem construct_phase : (construct m s).phase = .accumulating := rfl
@[simp] theorem construct_fault : (construct m s).fault = .none := rfl
@[simp] theorem construct_rsp : (construct m s).rsp = s.rsp := rfl
@[simp] theorem construct_msg : (construct m s).msg = [] := rfl
@[simp] theorem construct_inputs : (construct m s).inputs = s.inputs := rfl
@[simp] theorem construct_free : (construct m s).free = s.free + 1 := rfl

end

section
variable (s : State)

@[simp] theorem enterFinalizing_h : (enterFinalizing s).h = s.h := rfl
@[simp] theorem enterFinalizing_n : (enterFinalizing s).n = s.n := rfl
@[simp] theorem enterFinalizing_sigma : (enterFinalizing s).sigma = s.sigma := rfl
@[simp] theorem enterFinalizing_buf : (enterFinalizing s).buf = s.buf := rfl
@[simp] theorem enterFinalizing_buflen : (enterFinalizing s).buflen = s.buflen := rfl
@[simp] theorem enterFinalizing_ds : (enterFinalizing s).ds = s.ds := rfl
@[simp] theorem enterFinalizing_phase : (enterFinalizing s).phase = .finalizing := rfl
@[simp] theorem enterFinalizing_fault : (enterFinalizing s).fault = s.fault := rfl
@[simp] theorem enterFinalizing_rsp : (enterFinalizing s).rsp = s.rsp := rfl
@[simp] theorem enterFinalizing_msg : (enterFinalizing s).msg = s.msg := rfl
@[simp] theorem enterFinalizing_inputs : (enterFinalizing s).inputs = s.inputs := rfl
@[simp] theorem enterFinalizing_free : (enterFinalizing s).free = s.free := rfl

end

section
variable (s : State)

@[simp] theorem enterDone_h : (enterDone s).h = s.h := rfl
@[simp] theorem enterDone_n : (enterDone s).n = s.n := rfl
@[simp] theorem enterDone_sigma : (enterDone s).sigma = s.sigma := rfl
@[simp] theorem enterDone_buf : (enterDone s).buf = s.buf := rfl
@[simp] theorem enterDone_buflen : (enterDone s).buflen = s.buflen := rfl
@[simp] theorem enterDone_ds : (enterDone s).ds = s.ds := rfl
@[simp] theorem enterDone_phase : (enterDone s).phase = .done := rfl
@[simp] theorem enterDone_fault : (enterDone s).fault = s.fault := rfl
@[simp] theorem enterDone_rsp : (enterDone s).rsp = s.rsp := rfl
@[simp] theorem enterDone_msg : (enterDone s).msg = s.msg := rfl
@[simp] theorem enterDone_inputs : (enterDone s).inputs = s.inputs := rfl
@[simp] theorem enterDone_free : (enterDone s).free = s.free := rfl

end

section
variable (s : State)

@[simp] theorem resetEvent_h : (resetEvent s).h = 0 := rfl
@[simp] theorem resetEvent_n : (resetEvent s).n = 0 := rfl
@[simp] theorem resetEvent_sigma : (resetEvent s).sigma = 0 := rfl
@[simp] theorem resetEvent_buf : (resetEvent s).buf = freeCells s.free := rfl
@[simp] theorem resetEvent_buflen : (resetEvent s).buflen = 0 := rfl
@[simp] theorem resetEvent_ds : (resetEvent s).ds = .d512 := rfl
@[simp] theorem resetEvent_phase : (resetEvent s).phase = .accumulating := rfl
@[simp] theorem resetEvent_fault : (resetEvent s).fault = .none := rfl
@[simp] theorem resetEvent_rsp : (resetEvent s).rsp = none := rfl
@[simp] theorem resetEvent_msg : (resetEvent s).msg = [] := rfl
@[simp] theorem resetEvent_inputs : (resetEvent s).inputs = s.inputs := rfl
@[simp] theorem resetEvent_free : (resetEvent s).free = s.free + 1 := rfl

end

section
variable (s : State)

@[simp] theorem nextInput_h : (nextInput s).h = s.h := rfl
@[simp] theorem nextInput_n : (nextInput s).n = s.n := rfl
@[simp] theorem nextInput_sigma : (nextInput s).sigma = s.sigma := rfl
@[simp] theorem nextInput_buf : (nextInput s).buf = s.buf := rfl
@[simp] theorem nextInput_buflen : (nextInput s).buflen = s.buflen := rfl
@[simp] theorem nextInput_ds : (nextInput s).ds = s.ds := rfl
@[simp] theorem nextInput_phase : (nextInput s).phase = s.phase := rfl
@[simp] theorem nextInput_fault : (nextInput s).fault = s.fault := rfl
@[simp] theorem nextInput_rsp : (nextInput s).rsp = s.rsp := rfl
@[simp] theorem nextInput_msg : (nextInput s).msg = s.msg := rfl
@[simp] theorem nextInput_inputs : (nextInput s).inputs = s.inputs.tail := rfl
@[simp] theorem nextInput_free : (nextInput s).free = s.free := rfl

end

section
variable (s : State)

@[simp] theorem takeResponse_h : (takeResponse s).h = s.h := rfl
@[simp] theorem takeResponse_n : (takeResponse s).n = s.n := rfl
@[simp] theorem takeResponse_sigma : (takeResponse s).sigma = s.sigma := rfl
@[simp] theorem takeResponse_buf : (takeResponse s).buf = s.buf := rfl
@[simp] theorem takeResponse_buflen : (takeResponse s).buflen = s.buflen := rfl
@[simp] theorem takeResponse_ds : (takeResponse s).ds = s.ds := rfl
@[simp] theorem takeResponse_phase : (takeResponse s).phase = s.phase := rfl
@[simp] theorem takeResponse_fault : (takeResponse s).fault = s.fault := rfl
@[simp] theorem takeResponse_rsp : (takeResponse s).rsp = none := rfl
@[simp] theorem takeResponse_msg : (takeResponse s).msg = s.msg := rfl
@[simp] theorem takeResponse_inputs : (takeResponse s).inputs = s.inputs := rfl
@[simp] theorem takeResponse_free : (takeResponse s).free = s.free := rfl

end

section
variable (w : CmdWord) (s : State)

@[simp] theorem presented_h : (presented w s).h = s.h := rfl
@[simp] theorem presented_n : (presented w s).n = s.n := rfl
@[simp] theorem presented_sigma : (presented w s).sigma = s.sigma := rfl
@[simp] theorem presented_buf : (presented w s).buf = s.buf := rfl
@[simp] theorem presented_buflen : (presented w s).buflen = s.buflen := rfl
@[simp] theorem presented_ds : (presented w s).ds = s.ds := rfl
@[simp] theorem presented_phase : (presented w s).phase = s.phase := rfl
@[simp] theorem presented_fault : (presented w s).fault = s.fault := rfl
@[simp] theorem presented_rsp : (presented w s).rsp = none := rfl
@[simp] theorem presented_msg : (presented w s).msg = s.msg := rfl
@[simp] theorem presented_inputs : (presented w s).inputs = presentWord w :: s.inputs := rfl
@[simp] theorem presented_free : (presented w s).free = s.free := rfl

end

section
variable (v : Byte) (s : State)

/-! `appendByte`: what holds of both its branches, then each branch. -/

@[simp] theorem appendByte_ds : (appendByte v s).ds = s.ds := by
  simp only [appendByte]; split <;> rfl
@[simp] theorem appendByte_phase : (appendByte v s).phase = .accumulating := rfl
@[simp] theorem appendByte_fault : (appendByte v s).fault = s.fault := by
  simp only [appendByte]; split <;> rfl
@[simp] theorem appendByte_rsp : (appendByte v s).rsp = s.rsp := by
  simp only [appendByte]; split <;> rfl
@[simp] theorem appendByte_msg : (appendByte v s).msg = s.msg ++ [v] := rfl
@[simp] theorem appendByte_inputs : (appendByte v s).inputs = s.inputs := by
  simp only [appendByte]; split <;> rfl

/-- UPDATE before the 64th byte of a block (R152, R37). -/
theorem appendByte_of_ne (h : s.buflen ≠ 63) :
    appendByte v s = { putCell v s with buflen := s.buflen + 1, phase := .accumulating, msg := s.msg ++ [v] } := by
  simp only [appendByte, if_neg h]

/-- UPDATE with the 64th byte of a block (R152, R153, R37). -/
theorem appendByte_of_eq (h : s.buflen = 63) :
    appendByte v s =
      { unspecifyBuf { absorb (bufBlock (putCell v s)) (putCell v s) with buflen := 0 } with
        phase := .accumulating, msg := s.msg ++ [v] } := by
  simp only [appendByte, if_pos h]

end

/-- `withFetchWord` presents the word. -/
@[simp] theorem withFetchWord_eq (s : State) (nbits w : Nat) :
    s.withFetchWord nbits w = presented (tableWord nbits w) s := rfl

@[simp] theorem latch_none (c : FaultCode) : FaultCode.none.latch c = c := rfl

/-- The first cause wins (R29, R186). -/
theorem latch_of_ne {f : FaultCode} (h : f ≠ .none) (c : FaultCode) : f.latch c = f := by simp [FaultCode.latch, h]

@[simp] theorem statusByte_none : statusByte .none = 0 := rfl

/-- The status byte is 0 exactly when no fault stands (R79). -/
theorem statusByte_eq_zero {f : FaultCode} : statusByte f = 0 ↔ f = .none := by cases f <;> decide

/-- A faulting command never leaves FAULT at 0 (R186). -/
theorem latch_ne_none {f c : FaultCode} (h : c ≠ .none) : f.latch c ≠ .none := by
  unfold FaultCode.latch; split <;> assumption

end Sys2Proof.Machine
end

