-- ==== Sys2Proof/Laws/Step.lean ====
section
/-! SUPPORT. Everything a command, an accepted word and a step can do, said once: the equations of each meaning and
the inversion of a step. -/

namespace Sys2Proof.Machine

/-- INIT of a mode's size. -/
theorem execInit_of_mode {ds : BitVec 16} {m : DigestMode} (h : modeOfSize ds = some m) (s : State) :
    execInit ds s = .next (respond 0 [] (construct m s)) := by simp [execInit, h]

/-- INIT of any other size. -/
theorem execInit_of_none {ds : BitVec 16} (h : modeOfSize ds = none) (s : State) :
    execInit ds s = .next (raise .invalidParameter s) := by simp [execInit, h]

/-- UPDATE while a fault stands. -/
theorem execUpdate_of_faulted (v : Byte) {s : State} (h : s.fault ≠ .none) :
    execUpdate v s = .next (refuse s) := by simp [execUpdate, h]

/-- UPDATE at the length limit. -/
theorem execUpdate_of_limit (v : Byte) {s : State} (h : s.fault = .none) (hl : lengthAtLimit s = true) :
    execUpdate v s = .next (raise .lengthOverflow s) := by simp [execUpdate, h, hl]

/-- UPDATE that appends its byte. -/
theorem execUpdate_of_ok (v : Byte) {s : State} (h : s.fault = .none) (hl : lengthAtLimit s = false) :
    execUpdate v s = .next (respond 0 [] (appendByte v s)) := by simp [execUpdate, h, hl]

/-- DIGEST while a fault stands. -/
theorem execDigest_of_faulted {s : State} (h : s.fault ≠ .none) : execDigest s = .next (refuse s) := by
  simp [execDigest, h]

/-- DIGEST that completes. -/
theorem execDigest_of_ok {s : State} (h : s.fault = .none) :
    execDigest s = .next (respond 0 (digestBytes s) (enterDone s)) := by
  simp only [execDigest, h, ne_eq, not_true_eq_false, if_false]
  rfl

/-- HEXDIGEST while a fault stands. -/
theorem execHexdigest_of_faulted {s : State} (h : s.fault ≠ .none) : execHexdigest s = .next (refuse s) := by
  simp [execHexdigest, h]

/-- HEXDIGEST that completes. -/
theorem execHexdigest_of_ok {s : State} (h : s.fault = .none) :
    execHexdigest s = .next (respond 0 (hex (digestBytes s)) (enterDone s)) := by
  simp only [execHexdigest, h, ne_eq, not_true_eq_false, if_false]
  rfl

/-- Everything an executed command can do (R160): it starts a message, raises a cause, is refused, appends a byte or
responds with a digest. -/
theorem exec_cases (i : Instr) (s : State) :
    (∃ ds m, i = .init ds ∧ modeOfSize ds = some m ∧ exec i s = .next (respond 0 [] (construct m s))) ∨
    (∃ ds, i = .init ds ∧ modeOfSize ds = none ∧ exec i s = .next (raise .invalidParameter s)) ∨
    ((∀ ds, i ≠ .init ds) ∧ s.fault ≠ .none ∧ exec i s = .next (refuse s)) ∨
    (∃ v, i = .update v ∧ s.fault = .none ∧ lengthAtLimit s = true ∧ exec i s = .next (raise .lengthOverflow s)) ∨
    (∃ v, i = .update v ∧ s.fault = .none ∧ lengthAtLimit s = false ∧
      exec i s = .next (respond 0 [] (appendByte v s))) ∨
    (i = .digest ∧ s.fault = .none ∧ exec i s = .next (respond 0 (digestBytes s) (enterDone s))) ∨
    (i = .hexdigest ∧ s.fault = .none ∧ exec i s = .next (respond 0 (hex (digestBytes s)) (enterDone s))) := by
  cases i with
  | init ds =>
    cases hm : modeOfSize ds with
    | some m => exact .inl ⟨ds, m, rfl, hm, execInit_of_mode hm s⟩
    | none => exact .inr (.inl ⟨ds, rfl, hm, execInit_of_none hm s⟩)
  | update v =>
    by_cases hf : s.fault = .none
    · cases hl : lengthAtLimit s with
      | true => exact .inr (.inr (.inr (.inl ⟨v, rfl, hf, rfl, execUpdate_of_limit v hf hl⟩)))
      | false => exact .inr (.inr (.inr (.inr (.inl ⟨v, rfl, hf, rfl, execUpdate_of_ok v hf hl⟩))))
    · exact .inr (.inr (.inl ⟨by simp, hf, execUpdate_of_faulted v hf⟩))
  | digest =>
    by_cases hf : s.fault = .none
    · exact .inr (.inr (.inr (.inr (.inr (.inl ⟨rfl, hf, execDigest_of_ok hf⟩)))))
    · exact .inr (.inr (.inl ⟨by simp, hf, execDigest_of_faulted hf⟩))
  | hexdigest =>
    by_cases hf : s.fault = .none
    · exact .inr (.inr (.inr (.inr (.inr (.inr ⟨rfl, hf, execHexdigest_of_ok hf⟩)))))
    · exact .inr (.inr (.inl ⟨by simp, hf, execHexdigest_of_faulted hf⟩))

/-- A word that decodes runs as its command. -/
theorem runWord_of_ok {w : CmdWord} {i : Instr} (h : decode w = .ok i) (s : State) : runWord w s = exec i s := by
  simp [runWord, h]

/-- A word that does not decode raises IllegalCommand. -/
theorem runWord_of_error {w : CmdWord} {e : IllegalWord} (h : decode w = .error e) (s : State) :
    runWord w s = .next (raise .illegalCommand s) := by simp [runWord, h]

/-- Everything a step can do: nothing, a reset, a response taken, an accepted word executed. -/
theorem step_cases {s t : State} (h : step s = .next t) :
    (portEvent s = .idle ∧ t = s) ∨
    (portEvent s = .reset ∧ t = resetEvent (nextInput s)) ∨
    (portEvent s = .taken ∧ t = takeResponse (nextInput s)) ∨
    (∃ w, portEvent s = .accepted w ∧ runWord w (nextInput s) = .next t) ∨
    (portEvent s = .nothing ∧ t = nextInput s) := by
  unfold step at h
  split at h
  · exact .inl ⟨‹_›, (Host.Outcome.next.inj h).symm⟩
  · exact .inr (.inl ⟨‹_›, (Host.Outcome.next.inj h).symm⟩)
  · exact .inr (.inr (.inl ⟨‹_›, (Host.Outcome.next.inj h).symm⟩))
  · exact .inr (.inr (.inr (.inl ⟨_, ‹_›, h⟩)))
  · exact .inr (.inr (.inr (.inr ⟨‹_›, (Host.Outcome.next.inj h).symm⟩)))

/-- The word that `withFetchWord` presents is accepted at the next port event. -/
@[simp] theorem portEvent_presented (w : CmdWord) (s : State) : portEvent (presented w s) = .accepted w := rfl

/-- Presenting a word and letting the event pass changes nothing but the response port. -/
@[simp] theorem nextInput_presented (w : CmdWord) (s : State) : nextInput (presented w s) = takeResponse s := rfl

end Sys2Proof.Machine
end

