-- ==== Sys2Proof/Laws/Message.lean ====
section
/-! SUPPORT. How appending a byte changes the complete blocks and the tail of a message, and the tail held in BUF. -/

namespace Sys2Proof.Machine

/-- A message of `len` bytes has `floor(len / 64)` complete blocks. -/
theorem length_completeBlocks (d : List Byte) : (completeBlocks d).length = d.length / 64 := by simp [completeBlocks]

/-- A byte that completes no block leaves the complete blocks as they are. -/
theorem completeBlocks_append_of_ne (d : List Byte) (v : Byte) (h : d.length % 64 ≠ 63) : completeBlocks (d ++ [v]) = completeBlocks d := by
  have hq : (d ++ [v]).length / 64 = d.length / 64 := by simp; omega
  unfold completeBlocks
  rw [hq]
  apply List.map_congr_left
  intro j hj
  have : j < d.length / 64 := by simpa using hj
  rw [List.drop_append_of_le_length (by omega), List.take_append_of_le_length (by simp; omega)]

/-- The 64th byte of a block adds one complete block: the tail and that byte (R54). -/
theorem completeBlocks_append_of_eq (d : List Byte) (v : Byte) (h : d.length % 64 = 63) :
    completeBlocks (d ++ [v]) = completeBlocks d ++ [ofList (tailBytes d ++ [v])] := by
  have hq : (d ++ [v]).length / 64 = d.length / 64 + 1 := by simp; omega
  unfold completeBlocks
  rw [hq, List.range_succ, List.map_append]
  congr 1
  · apply List.map_congr_left
    intro j hj
    have : j < d.length / 64 := by simpa using hj
    rw [List.drop_append_of_le_length (by omega), List.take_append_of_le_length (by simp; omega)]
  · simp only [List.map_cons, List.map_nil, tailBytes]
    rw [List.drop_append_of_le_length (by omega), List.take_of_length_le (by simp; omega)]

/-- A byte that completes no block joins the tail. -/
theorem tailBytes_append_of_ne (d : List Byte) (v : Byte) (h : d.length % 64 ≠ 63) : tailBytes (d ++ [v]) = tailBytes d ++ [v] := by
  have hq : (d ++ [v]).length / 64 = d.length / 64 := by simp; omega
  unfold tailBytes
  rw [hq, List.drop_append_of_le_length (by omega)]

/-- The 64th byte of a block leaves no tail. -/
theorem tailBytes_append_of_eq (d : List Byte) (v : Byte) (h : d.length % 64 = 63) : tailBytes (d ++ [v]) = [] := by
  unfold tailBytes
  apply List.drop_eq_nil_of_le
  simp; omega

/-- The tail in BUF has BUFLEN bytes. -/
theorem length_tail (s : State) : (tail s).length = s.buflen.val := by
  have := s.buflen.isLt
  simp [tail]

/-- Writing cell BUFLEN and advancing BUFLEN appends a byte to the tail (R152). -/
theorem tail_putCell (s t : State) (v : Byte) (h : s.buflen ≠ 63) (hb : t.buf = s.buf.set s.buflen.val v s.buflen.isLt) (hl : t.buflen = s.buflen + 1) : tail t = tail s ++ [v] := by
  have hlt := s.buflen.isLt
  have hv : t.buflen.val = s.buflen.val + 1 := by
    rw [hl, Fin.val_add_one_of_lt']
    have : s.buflen.val ≠ 63 := fun hh => h (Fin.ext hh)
    omega
  unfold tail
  rw [hb, hv]
  apply List.ext_getElem
  · simp
  · intro i h1 h2
    simp only [List.getElem_take, List.getElem_append, List.length_take, Vector.length_toList]
    have : i < s.buflen.val + 1 := by simp at h1; omega
    by_cases hi : i < s.buflen.val
    · rw [dif_pos (by omega)]
      simp [show s.buflen.val ≠ i by omega]
    · rw [dif_neg (by omega)]
      have : i = s.buflen.val := by omega
      simp [this]

/-- The block an UPDATE completes is the tail and the byte (R152). -/
theorem bufBlock_putCell (s : State) (v : Byte) (h : s.buflen = 63) : bufBlock (putCell v s) = ofList (tail s ++ [v]) := by
  apply block_ext
  intro i
  have hl : s.buflen.val = 63 := by rw [h]; rfl
  simp only [bufBlock, byte_ofBytes, byte_ofList, putCell_buf]
  have hlen := length_tail s
  by_cases hi : i.val < 63
  · have : i.val < (tail s ++ [v]).length := by simp [hlen]; omega
    rw [List.getD_eq_getElem?_getD, List.getElem?_eq_getElem this, List.getElem_append_left (by omega)]
    simp [tail, show s.buflen.val ≠ i.val by omega]
  · have : i.val = 63 := by omega
    have : i.val < (tail s ++ [v]).length := by simp [hlen]; omega
    rw [List.getD_eq_getElem?_getD, List.getElem?_eq_getElem this, List.getElem_append_right (by omega)]
    simp [show s.buflen.val = i.val by omega]

/-- The count the loop over complete blocks ends with (R150). -/
theorem chainOf_n (m : DigestMode) (d : List Byte) : ((chainOf m d).n).toNat = 512 * (d.length / 64) % 2^64 := by
  rw [← length_completeBlocks d]
  unfold chainOf
  have : ∀ (l : List Block) (c : Chain), ((l.foldl Chain.block c).n).toNat = (c.n.toNat + 512 * l.length) % 2^64 := by
    intro l
    induction l with
    | nil => intro c; simpa using (Nat.mod_eq_of_lt c.n.isLt).symm
    | cons b l ih => intro c; simp [ih, Chain.block, addBits]; omega
  simpa [Chain.start] using this (completeBlocks d) (Chain.start m)

end Sys2Proof.Machine
end

