-- ==== Sys2Proof/Laws/PerInstr.lean ====
section
/-! SUPPORT. What is said of every command as syntax: the fields of its word (R71, R72). -/

namespace Sys2Proof.Laws.EncodeFields

/-- The opcode of R72. -/
def opcodeOf : Instr → BitVec 8
  | .init _ => 0x01
  | .update _ => 0x02
  | .digest => 0x03
  | .hexdigest => 0x04

/-- The operand field `IMM` of R73 to R75. -/
def operandOf : Instr → BitVec 16
  | .init ds => ds
  | .update v => v.setWidth 16
  | .digest => 0
  | .hexdigest => 0

/-- The word of a command has its opcode, a zero reserved byte and its operand (R71, R72). -/
def Statement (i : Instr) : Prop :=
  opField (encode i) = opcodeOf i ∧ rsvField (encode i) = 0 ∧ immField (encode i) = operandOf i

theorem init (ds : BitVec 16) : Statement (.init ds) := by simp [Statement, encode, opcodeOf, operandOf]

theorem update (v : Byte) : Statement (.update v) := by simp [Statement, encode, opcodeOf, operandOf]

theorem digest : Statement .digest := by simp [Statement, encode, opcodeOf, operandOf]

theorem hexdigest : Statement .hexdigest := by simp [Statement, encode, opcodeOf, operandOf]

end Sys2Proof.Laws.EncodeFields
end

