-- ==== Sys2Proof/Tests/Slice0.lean ====
section
/-! SUPPORT. The model's own tests. Expected values are written out from the rules and from the vectors of
spec/95_test_vectors.md (named in each comment); the witnesses show that the hypotheses of the statements can be met. -/

namespace Sys2Proof.Tests

open Sys2Proof Sys2Proof.Machine

/-! ## Well-formed assembler lines (R84, R85): one ill-formed line for each check, and the bounds that pass -/

theorem test_wf_init_too_large : (AsmLine.init 65536).wf = false := by decide
theorem test_wf_init_bound : (AsmLine.init 65535).wf = true := by decide
theorem test_wf_update_too_large : (AsmLine.update 256).wf = false := by decide
theorem test_wf_update_bound : (AsmLine.update 255).wf = true := by decide
theorem test_wf_char_not_ascii : (AsmLine.updateChar (Char.ofNat 128)).wf = false := by decide
theorem test_wf_updates_one_too_large : (AsmLine.updates [0x61, 256]).wf = false := by decide
theorem test_wf_text_not_ascii : (AsmLine.updatesText ['a', Char.ofNat 0x421]).wf = false := by decide
theorem test_wf_construct_size : (AsmLine.construct 70000 []).wf = false := by decide
theorem test_wf_construct_byte : (AsmLine.construct 256 [300]).wf = false := by decide

/-- `CONSTRUCT 256, 0x61` is `INIT 256` and `UPDATE 0x61`, and `UPDATE 'a'` is `UPDATE 0x61` (R85, R84). -/
theorem test_expand_construct :
    expand (.construct 256 [0x61]) = some [.command (.init 256), .command (.update 0x61)] ∧
    expand (.updateChar 'a') = some [.command (.update 0x61)] ∧ expand (.updates []) = some [] ∧
    expand (.init 65536) = none := by decide

/-! ## Decoding: each command's word bit by bit from R71 to R75 and the table's encoding column -/

theorem test_decode_init_256 : decode 0b00000001000000000000000100000000 = .ok (.init 256) := by rfl
theorem test_decode_init_512 : decode 0b00000001000000000000001000000000 = .ok (.init 512) := by rfl
theorem test_decode_init_65535 : decode 0b00000001000000001111111111111111 = .ok (.init 65535) := by rfl
theorem test_decode_update_61 : decode 0b00000010000000000000000001100001 = .ok (.update 0x61) := by rfl
theorem test_decode_update_ff : decode 0b00000010000000000000000011111111 = .ok (.update 0xff) := by rfl
theorem test_decode_digest : decode 0b00000011000000000000000000000000 = .ok .digest := by rfl
theorem test_decode_hexdigest : decode 0b00000100000000000000000000000000 = .ok .hexdigest := by rfl
/-- V73, V78, V82, V86, V88 to V91. -/
theorem test_decode_illegal :
    decode 0x01010100 = .error .reservedBits ∧ decode 0x02000100 = .error .updateHighByte ∧
    decode 0x03000001 = .error .digestOperand ∧ decode 0x04000200 = .error .hexdigestOperand ∧
    decode 0x00000000 = .error .unassignedOpcode ∧ decode 0x05000000 = .error .unassignedOpcode ∧
    decode 0x81000200 = .error .unassignedOpcode ∧ decode 0xffffffff = .error .reservedBits :=
  ⟨rfl, rfl, rfl, rfl, rfl, rfl, rfl, rfl⟩
theorem test_decodeTableWord : decodeTableWord 32 0x02000061 = some (.update 0x61) ∧
    decodeTableWord 32 0x05000000 = none := by decide
/-- The words of R84. -/
theorem test_encode : encode (.init 256) = 0x01000100 ∧ encode (.init 512) = 0x01000200 ∧
    encode (.update 0x61) = 0x02000061 ∧ encode .digest = 0x03000000 ∧ encode .hexdigest = 0x04000000 := by decide

/-! ## The datapath, against section 3 of spec/95_test_vectors.md -/

/-- The block `seq` of the vectors: byte `i` is `i`. -/
def seqBlock : Block := ofBytes fun i => BitVec.ofNat 8 i.val

/-- R103: the `number` lines of C[0] and C[11] are the same blocks as their `bytes` lines. -/
theorem test_constants_as_numbers :
    romC 0 = 0xb1085bda1ecadae9ebcb2f81c0657c1f2f6a76432e45d016714eb88d7585c4fc4b7ce09192676901a2422a08a460d31505767436cc744d23dd806559f2a64507 ∧
    romC 11 = 0x378ee767f11631bad21380b00449b17acda43c32bcdf1d77f82012d430219f9b5d80ef9d1891cc86e71da4aa88e12852faf417d5d9b21b9948bc924af11bd720 := by
  decide +kernel
/-- R102: the xor of all 64 masks. -/
theorem test_masks_xor : (List.finRange 64).foldl (fun a j => a ^^^ romA j) 0 = 0xab8eff9ec7466498 := by
  decide +kernel
/-- V7. -/
theorem test_P_seq : layerP seqBlock = spelled 0x00081018202830380109111921293139020a121a222a323a030b131b232b333b040c141c242c343c050d151d252d353d060e161e262e363e070f171f272f373f := by
  decide +kernel
/-- V18 and V20. -/
theorem test_l : wordL 0x0123456789abcdef = 0xa49049a565bdc399 ∧ wordL 0x8e20faa72ba0b470 = 0xcd480f001b4f324a := by
  decide +kernel
/-- V30. -/
theorem test_LPS_seq : lps seqBlock = spelled 0xe9446bb7270b3f890ff2e7ef01f17d777fa3ef52328dbbde2770afba74db16102a6f65a0ada2eadff3e84836172b92830203ab2fde02c7a2bb38579b7776d07f := by
  decide +kernel
/-- V34 and V36: the adder wraps, and its carry crosses a word boundary. -/
theorem test_add512 : add512 (rep 0xff) (spelled (0x01 <<< 504)) = 0 ∧
    add512 (spelled (0xffffffffffffffff <<< 448)) (spelled (0x01 <<< 504)) = spelled (0x01 <<< 440) := by
  decide +kernel
/-- V66, V60 and V64. -/
theorem test_assembled_blocks :
    keyBlock 0xffffffffffffffff seqBlock = spelled 0xfffefdfcfbfaf9f808090a0b0c0d0e0f101112131415161718191a1b1c1d1e1f202122232425262728292a2b2c2d2e2f303132333435363738393a3b3c3d3e3f ∧
    padBlock [0x01] = spelled (0x0101 <<< 496) ∧
    lenBlock 0xfffffffffffffff8 = spelled (0xf8ffffffffffffff <<< 448) := by
  decide +kernel
/-- V95. -/
theorem test_hex : hex [0x0a, 0xa0] = [0x30, 0x61, 0x61, 0x30] := by decide

/-! ## One command on a small state -/

/-- A small state: the reset values with `k` zero bytes of a message in BUF and cells that are plain numbers. -/
def small (k : Fin 64) : State :=
  { State.reset with buf := Vector.replicate 64 0, buflen := k, msg := List.replicate k.val 0 }

/-- The response an outcome leaves waiting. -/
def rspOf : Host.Outcome State Fault Refusal → Option Response
  | .next t => t.rsp
  | _ => none

/-- One register of the next state. -/
def fieldOf {α : Type} (f : State → α) : Host.Outcome State Fault Refusal → Option α
  | .next t => some (f t)
  | _ => none

/-- The example of R151: INIT 256 on a faulted state. -/
theorem test_init_256 :
    let o := exec (.init 256) { small 3 with fault := .illegalCommand, n := 512, sigma := 5, phase := .done }
    fieldOf (fun t => (t.n, t.sigma, t.buflen, t.ds)) o = some (0, 0, 0, .d256) ∧
    fieldOf (fun t => (t.phase, t.fault, t.rsp, t.msg)) o = some (.accumulating, .none, some ⟨0, []⟩, []) := by
  decide +kernel
/-- P5, step 3: INIT 384 keeps the byte already in BUF. -/
theorem test_init_384 :
    fieldOf (fun t => (t.buflen, t.fault, t.rsp, t.msg)) (exec (.init 384) (small 1)) =
    some (1, .invalidParameter, some ⟨1, []⟩, [0]) := by decide +kernel
/-- The example of R152: UPDATE 0x61 from the reset state. -/
theorem test_update_61 :
    fieldOf (fun t => (tail t, t.buflen, t.n, t.msg, t.rsp)) (exec (.update 0x61) State.reset) =
    some ([0x61], 1, 0, [0x61], some ⟨0, []⟩) := by decide +kernel
/-- The example of R153 and P8, steps 2 to 65: the 64th zero byte absorbs the block; `H` is V47. -/
theorem test_update_completes_block :
    fieldOf (fun t => (t.h, t.n, t.sigma, t.buflen)) (exec (.update 0) (small 63)) =
    some (spelled 0xb4f467e1b8f45d2e4891763cca06d9cfe54392d1d4f4bdffbb14f805134bbfdd0946470118b3c0c904ce213ee42ae3a7f42c327db6c5e1525cee59fa222b0e2a, 512, 0, 0) := by
  decide +kernel
/-- P7, step 2: the length limit. -/
theorem test_update_overflow :
    fieldOf (fun t => (t.buflen, t.n, t.fault, t.rsp))
      (exec (.update 0) { small 63 with n := 18446744073709551104 }) =
    some (63, 18446744073709551104, .lengthOverflow, some ⟨3, []⟩) := by decide +kernel
/-- K5 and P1, step 2: DIGEST of the empty message in 512-bit mode. -/
theorem test_digest_empty :
    rspOf (exec .digest State.reset) = some ⟨0, bytes (spelled 0x8e945da209aa869f0455928529bcae4679e9873ab707b55315f56ceb98bef0a7362f715528356ee83cda5f2aac4c6ad2ba3a715c1bcd81cb8e9f90bf4c1c1a8a)⟩ := by
  decide +kernel
/-- K6 and P6, step 8: HEXDIGEST of the empty message in 256-bit mode, the 64 characters as ASCII codes. -/
theorem test_hexdigest_empty_256 :
    rspOf (exec .hexdigest { small 0 with ds := .d256, h := iv .d256 }) =
    some ⟨0, bytes (spelled 0x33663533396132313365393763383032636332323964343734633661613332613832356133363062326139333361393439666439323532303864396365316262)⟩ := by
  decide +kernel
/-- P5, steps 4 and 5: refused with the sticky code. -/
theorem test_refused :
    rspOf (exec (.update 0x62) { small 1 with fault := .invalidParameter }) = some ⟨1, []⟩ ∧
    rspOf (exec .digest { small 1 with fault := .invalidParameter }) = some ⟨1, []⟩ ∧
    rspOf (exec .hexdigest { small 1 with fault := .illegalCommand }) = some ⟨2, []⟩ := by decide +kernel

/-! ## One step at the ports -/

/-- A word presented right after reset runs at once; the illegal word of P5, step 6, sets FAULT to 2. -/
theorem test_step_after_reset :
    fieldOf (fun t => (t.buflen, t.rsp)) (step (State.reset.withFetchWord 32 0x02000061)) = some (1, some ⟨0, []⟩) ∧
    fieldOf (fun t => (t.fault, t.rsp)) (step (State.reset.withFetchWord 32 0x05000000)) =
      some (.illegalCommand, some ⟨2, []⟩) := by decide +kernel
/-- P6, step 5: reserved bits come before the size, and the first cause stays. -/
theorem test_step_priority :
    fieldOf (fun t => (t.fault, t.rsp))
      (step (State.withFetchWord { small 1 with fault := .lengthOverflow } 32 0x01010180)) =
    some (.lengthOverflow, some ⟨3, []⟩) := by decide +kernel
/-- R204: reset with a command presented and a response waiting. -/
theorem test_step_reset_wins :
    let o := step { small 5 with n := 512, fault := .illegalCommand, rsp := some ⟨2, []⟩,
                                 inputs := [⟨true, true, 0x01000100, true⟩] }
    fieldOf (fun t => (t.n, t.fault, t.rsp)) o = some (0, .none, none) ∧
    fieldOf (fun t => (t.msg, t.inputs)) o = some ([], []) := by
  decide +kernel

/-! ## Witnesses: states and operands that meet the hypotheses of the statements -/

/-- A message of one byte on the way: every clause of the invariant holds of it. -/
theorem witness_inv : (small 1).Inv := by
  constructor <;> simp [small, State.reset, Config.maxMessageBytes, tailBytes, chainOf, completeBlocks, Chain.start, iv]
  decide

/-- StepKeepsTheInvariant, StepNeverStops: a state of the invariant with a command presented, and its next state. -/
theorem witness_step_inv : ∃ s t : State, s.Inv ∧ step s = .next t :=
  ⟨presented (encode (.update 7)) (small 1), _,
    ⟨witness_inv.msg_le, witness_inv.buflen_eq, witness_inv.n_eq, witness_inv.tail_eq, witness_inv.h_eq,
      witness_inv.sigma_eq, witness_inv.phase_ne, by simp⟩, rfl⟩

/-- DigestIsStreebogOfTheMessage, BitCounterStaysBelowTwoPow64, DigestAppendDigest, HashFromAnyState. -/
theorem witness_digest : ∃ (s : State) (a b : List Byte), s.Inv ∧ s.fault = .none ∧
    s.msg.length + a.length + b.length ≤ Config.maxMessageBytes ∧ a ≠ [] ∧ b ≠ [] :=
  ⟨small 1, [1], [2], witness_inv, rfl, by decide, by decide, by decide⟩

/-- DecodeByMatchAndMask: a word of no pattern. -/
theorem witness_no_pattern : (0 : CmdWord) &&& 0xFFFF0000 ≠ 0x01000000 ∧ (0 : CmdWord) &&& 0xFFFFFF00 ≠ 0x02000000 ∧
    (0 : CmdWord) &&& 0xFFFFFFFF ≠ 0x03000000 ∧ (0 : CmdWord) &&& 0xFFFFFFFF ≠ 0x04000000 := by decide

/-- StepRunsTheDecodedCommand, EveryAcceptedWordIsAnswered: a command presented to an idle engine. -/
theorem witness_accepted : ∃ (s : State) (p : Pins) (rest : List Pins) (i : Instr), s.inputs = p :: rest ∧
    p.rst = false ∧ s.rsp = none ∧ p.cmdValid = true ∧ decode p.cmdWord = .ok i ∧ portEvent s = .accepted p.cmdWord :=
  ⟨presented 0x02000061 (small 1), presentWord 0x02000061, [], .update 0x61, rfl, rfl, rfl, rfl, rfl, rfl⟩

/-- AcceptedIllegalWordFaults, IllegalWordsRaiseIllegalCommand, FaultedEngineRefuses: the all-zero word is no command's. -/
theorem witness_illegal : ∃ (s : State) (p : Pins) (rest : List Pins), s.inputs = p :: rest ∧ p.rst = false ∧
    s.rsp = none ∧ p.cmdValid = true ∧ (∀ i, p.cmdWord ≠ encode i) ∧ ∃ e, decode p.cmdWord = .error e := by
  refine ⟨presented 0 (small 1), presentWord 0, [], rfl, rfl, rfl, rfl, fun i h => ?_, .unassignedOpcode, rfl⟩
  have h0 : opField (encode i) = 0 := by rw [← h]; decide
  cases i <;> simp [encode] at h0

/-- ResetEventWritesEveryRegister, FaultIsClearedByInitAndResetOnly (first clause): reset of a faulted engine. -/
theorem witness_reset : ∃ (s : State) (p : Pins) (rest : List Pins), s.inputs = p :: rest ∧ p.rst = true ∧
    s.fault ≠ .none ∧ p.cmdValid = true ∧ portEvent s = .reset :=
  ⟨{ small 5 with fault := .illegalCommand, inputs := [⟨true, true, 0, true⟩] }, ⟨true, true, 0, true⟩, [], rfl, rfl,
    by decide, rfl, rfl⟩

/-- ResponseWaitsUntilTaken: each of its clauses, the waiting response with `rsp_ready` low and high. -/
theorem witness_waiting :
    (∃ (s : State) (p : Pins) (rest : List Pins) (r : Response),
      s.inputs = p :: rest ∧ p.rst = false ∧ s.rsp = some r ∧ p.cmdValid = true ∧ p.rspReady = false) ∧
    (∃ (s : State) (p : Pins) (rest : List Pins) (r : Response),
      s.inputs = p :: rest ∧ p.rst = false ∧ s.rsp = some r ∧ p.cmdValid = true ∧ p.rspReady = true) ∧
    (∃ (s : State) (p : Pins) (rest : List Pins),
      s.inputs = p :: rest ∧ p.rst = false ∧ s.rsp = none ∧ p.cmdValid = false) ∧
    (∃ s : State, s.inputs = []) :=
  ⟨⟨{ small 1 with rsp := some ⟨0, []⟩, inputs := [presentWord 0] }, presentWord 0, [], ⟨0, []⟩, rfl, rfl, rfl, rfl, rfl⟩,
    ⟨{ small 1 with rsp := some ⟨0, []⟩, inputs := [⟨false, true, 0, true⟩] }, ⟨false, true, 0, true⟩, [], ⟨0, []⟩, rfl,
      rfl, rfl, rfl, rfl⟩,
    ⟨{ small 1 with inputs := [takePins] }, takePins, [], rfl, rfl, rfl, rfl⟩, ⟨small 1, rfl⟩⟩

/-- OutputPinsShowTheResponse: a state without and one with a response, each with pins that show it. -/
theorem witness_shown :
    (∃ (s : State) (o : Outputs), shows s o = true ∧ s.rsp = none) ∧
    (∃ (s : State) (o : Outputs) (r : Response), shows s o = true ∧ s.rsp = some r ∧ r.wf = true) :=
  ⟨⟨small 1, ⟨true, false, 9, 9, 0⟩, by decide +kernel, rfl⟩,
    ⟨{ small 1 with rsp := some ⟨3, []⟩ }, ⟨false, true, 3, 0, 77⟩, ⟨3, []⟩, by decide +kernel, rfl, by decide⟩⟩

/-- DrivingTheHostPortsRunsTheCommands: a program of two commands. -/
theorem witness_driven : ∃ (is : List Instr) (s : State) (rest : List Pins),
    s.rsp = none ∧ s.inputs = driveAll (is.map .command) ++ rest ∧ is.length = 2 ∧ rest ≠ [] :=
  ⟨[.init 256, .digest], { small 1 with inputs := driveAll [.command (.init 256), .command .digest] ++ [resetPins] },
    [resetPins], rfl, rfl, rfl, by decide⟩

/-- InitStartsAMessageOrFaults, FaultedEngineRefuses: sizes next to the legal ones. -/
theorem witness_bad_size : (255 : BitVec 16) ≠ 256 ∧ (255 : BitVec 16) ≠ 512 ∧ (513 : BitVec 16) ≠ 256 ∧
    (513 : BitVec 16) ≠ 512 := by decide

/-- UpdateAppendsItsByte: its clauses at BUFLEN 62 and 63, one block before the limit, at the limit, and faulted. -/
theorem witness_update :
    (∃ s : State, s.fault = .none ∧ s.buflen ≠ 63 ∧ s.buflen.val = 62) ∧
    (∃ (s : State) (v : Byte) (b : Block), s.fault = .none ∧ s.buflen = 63 ∧ s.n ≠ BitVec.ofNat 512 (2 ^ 64 - 512) ∧
      s.n = BitVec.ofNat 512 (2 ^ 64 - 1024) ∧ ∀ i : Fin 64, byte b i = if i = 63 then v else s.buf[i]) ∧
    (∃ s : State, s.fault = .none ∧ s.buflen = 63 ∧ s.n = BitVec.ofNat 512 (2 ^ 64 - 512)) ∧
    (∃ s : State, s.fault ≠ .none) :=
  ⟨⟨small 62, rfl, by decide, rfl⟩,
    ⟨{ small 63 with n := BitVec.ofNat 512 (2 ^ 64 - 1024) }, 7, ofBytes fun i => if i = 63 then 7 else 0, rfl, rfl,
      by decide +kernel, rfl, by decide +kernel⟩,
    ⟨{ small 63 with n := BitVec.ofNat 512 (2 ^ 64 - 512) }, rfl, rfl, rfl⟩,
    ⟨{ small 1 with fault := .lengthOverflow }, by decide⟩⟩

/-- DigestAnswersTheFinalisedValue, HexdigestSpellsTheDigest, DigestTwiceIsTheSame: both modes without a fault. -/
theorem witness_no_fault : ∃ s t : State, s.fault = .none ∧ s.ds = .d512 ∧ t.fault = .none ∧ t.ds = .d256 :=
  ⟨small 1, { small 63 with ds := .d256 }, rfl, rfl, rfl, rfl⟩

/-- PaddedBlockBytes: the shortest and the longest tail. -/
theorem witness_tails : ([] : List Byte).length ≤ 63 ∧ (List.replicate 63 (5 : Byte)).length = 63 := by decide

/-- HexSpellsNibbles: the last byte of two. -/
theorem witness_hex : 1 < ([0x0a, 0xa0] : List Byte).length := by decide

/-- The round keys and data states of R131 from a key and a block, as a recursion. -/
def unrolled (K m : Block) : Nat → Block × Block
  | 0 => (K, m)
  | n + 1 => roundE (unrolled K m n) (Fin.ofNat 12 n)

/-- CipherUnrolled: sequences that meet its recurrence. -/
theorem witness_unrolled : ∃ k x : Nat → Block, ∀ i : Fin 12,
    k (i.val + 1) = lps (layerX (k i.val) (romC i)) ∧ x (i.val + 1) = lps (layerX (k i.val) (x i.val)) := by
  refine ⟨fun n => (unrolled 0 0 n).1, fun n => (unrolled 0 0 n).2, fun i => ?_⟩
  simp [unrolled, roundE]

/-- FaultIsClearedByInitAndResetOnly: an accepted INIT, and a step of a faulted engine that is neither. -/
theorem witness_fault_steps :
    (∃ (s t : State) (m : DigestMode), portEvent s = .accepted (encode (.init (BitVec.ofNat 16 m.size))) ∧
      s.fault ≠ .none ∧ step s = .next t) ∧
    (∃ s t : State, s.fault ≠ .none ∧ step s = .next t ∧ portEvent s ≠ .reset ∧
      ∀ m : DigestMode, portEvent s ≠ .accepted (encode (.init (BitVec.ofNat 16 m.size)))) := by
  refine ⟨⟨presented (encode (.init 256)) { small 1 with fault := .illegalCommand }, _, .d256, rfl, by decide, rfl⟩,
    ⟨presented (encode .digest) { small 1 with fault := .illegalCommand }, _, by decide, rfl, by decide, fun m => ?_⟩⟩
  cases m <;> decide

/-- ModeChangesOnlyByInitOrReset and ChainIsWrittenOnlyByInitResetAndFullBlocks: steps that change DS, N and `H`. -/
theorem witness_changes :
    (∃ s t : State, step s = .next t ∧ t.ds ≠ s.ds) ∧
    (∃ s t : State, step s = .next t ∧ ¬ (t.h = s.h ∧ t.n = s.n ∧ t.sigma = s.sigma)) :=
  ⟨⟨presented (encode (.init 256)) (small 1), _, rfl, by decide⟩,
    ⟨{ small 1 with n := 512, inputs := [resetPins] }, _, rfl, by decide +kernel⟩⟩

/-- PhaseHasNoEffect, MessageIsGhost, StaleCellsAreNeverRead: two different states related by each. -/
theorem witness_related :
    (∃ s t : State, sameButPhase s t ∧ s.phase ≠ t.phase) ∧ (∃ s t : State, sameButMsg s t ∧ s.msg ≠ t.msg) ∧
    (∃ s t : State, sameButStale s t ∧ s.buf ≠ t.buf) :=
  ⟨⟨small 1, { small 1 with phase := .done }, rfl, by decide⟩, ⟨small 1, { small 1 with msg := [3] }, rfl, by decide⟩,
    ⟨small 1, { small 1 with buf := (Vector.replicate 64 0).set 5 7 }, ⟨rfl, by decide +kernel⟩, by decide +kernel⟩⟩

end Sys2Proof.Tests
end

section
/-! The views of a block agree (R10, R51, R52): a number is the sum of its digits, so a bit vector is the sum of its
fields of one width; the integer of a block and its words are two instances. -/

namespace Sys2Proof.Machine

/-- The first `m` digits of a number in base `B` sum to the number modulo `B ^ m`. -/
theorem sum_digits_eq_mod_pow (B v m : Nat) : ∑ i : Fin m, v / B ^ i.val % B * B ^ i.val = v % B ^ m := by
  induction m with
  | zero => simp [Nat.mod_one]
  | succ m ih =>
    rw [Fin.sum_univ_castSucc, Nat.mod_pow_succ]
    simp only [Fin.val_castSucc, Fin.val_last, ih]
    rw [Nat.mul_comm (B ^ m)]

/-- A bit vector cut into `m` fields of `w` bits is the sum of its fields, the lowest field the least significant. -/
theorem toNat_eq_sum_fields {w m n : Nat} (b : BitVec n) (hn : w * m = n) :
    b.toNat = ∑ i : Fin m, (b.extractLsb' (w * i.val) w).toNat * (2 ^ w) ^ i.val := by
  have hb : b.toNat % (2 ^ w) ^ m = b.toNat := Nat.mod_eq_of_lt (by rw [← Nat.pow_mul, hn]; exact b.isLt)
  rw [← hb, ← sum_digits_eq_mod_pow]
  simp only [BitVec.extractLsb'_toNat, Nat.shiftRight_eq_div_pow, Nat.pow_mul]

/-- Byte `t` of word `k` is byte `8k + t` of the block (R51). -/
theorem extract_word64_eq_byte (b : Block) (k t : Fin 8) :
    (word64 b k).extractLsb' (8 * t.val) 8 = byte b ⟨8 * k.val + t.val, by omega⟩ := by
  apply BitVec.eq_of_getLsbD_eq
  intro j hj
  have hin : 8 * t.val + j < 64 := by omega
  have hpos : 64 * k.val + (8 * t.val + j) = 8 * (8 * k.val + t.val) + j := by ring
  simp [byte, word64, hj, hin, hpos]

/-- A word is the sum of its eight bytes (R10, R51). -/
theorem word64_toNat_eq_sum_bytes (b : Block) (k : Fin 8) :
    (word64 b k).toNat = ∑ t : Fin 8, (byte b ⟨8 * k.val + t.val, by omega⟩).toNat * 256 ^ t.val := by
  simp only [← extract_word64_eq_byte]
  exact toNat_eq_sum_fields (w := 8) (word64 b k) rfl

/-- The integer of a block is the sum of its bytes (R10, R52). -/
theorem int512_eq_sum_bytes (b : Block) : int512 b = ∑ i : Fin 64, (byte b i).toNat * 256 ^ i.val :=
  toNat_eq_sum_fields (w := 8) b rfl

/-- The integer of a block is the sum of its words (R10, R52). -/
theorem int512_eq_sum_words (b : Block) : int512 b = ∑ k : Fin 8, (word64 b k).toNat * 2 ^ (64 * k.val) := by
  simp only [Nat.pow_mul]
  exact toNat_eq_sum_fields (w := 64) b rfl

/-- Settles O23: a bit vector is the sum of its fields, for the bytes of a word and the bytes and words of a block. -/
theorem viewsOfABlockAgree : Obligations.ViewsOfABlockAgree := fun b =>
  ⟨word64_toNat_eq_sum_bytes b, int512_eq_sum_bytes b, int512_eq_sum_words b⟩

end Sys2Proof.Machine
end

section
/-! What a step can do to the message an engine holds: a reset, a successful INIT and a successful UPDATE write it, and
every other step leaves it alone (R22 to R27, R151 to R157). -/

namespace Sys2Proof

/-- A word that decodes to a command is the word of that command (R71 to R76). -/
theorem eq_encode_of_decode {w : CmdWord} {i : Instr} (h : decode w = .ok i) : w = encode i := by
  have hw := cmdWord_fields w
  unfold decode at h
  split at h
  · cases h
  next hrsv =>
  rw [not_not.mp hrsv] at hw
  split at h
  next hop => cases h; rw [← hw, hop]; simp [encode]
  split at h
  next hop =>
    split at h
    · cases h
    next himm => cases h; rw [immField_of_high_zero w (not_not.mp himm), hop] at hw; exact hw.symm
  split at h
  next hop =>
    split at h
    · cases h
    next himm => cases h; rw [not_not.mp himm, hop] at hw; exact hw.symm
  split at h
  next hop =>
    split at h
    · cases h
    next himm => cases h; rw [not_not.mp himm, hop] at hw; exact hw.symm
  · cases h

end Sys2Proof

namespace Sys2Proof.Machine

/-- The refusal or fault answer of every FAULT code has a form of R78. -/
theorem wf_statusByte (f : FaultCode) : Response.wf ⟨statusByte f, []⟩ = true := by cases f <;> decide

/-- The answer of a completed DIGEST has a form of R78. -/
theorem wf_digest (s : State) : Response.wf ⟨0, digestBytes s⟩ = true := by
  rw [digestBytes]
  cases s.ds <;> simp [Response.wf, length_digestOf]

/-- The answer of a completed HEXDIGEST has a form of R78. -/
theorem wf_hexdigest (s : State) : Response.wf ⟨0, hex (digestBytes s)⟩ = true := by
  rw [digestBytes]
  cases s.ds <;> simp [Response.wf, length_digestOf]

/-- `t` holds the same message as `s`: they differ at most in PHASE, FAULT, the response port and what the host will
drive; PHASE has at most become DONE, and a new response has a form of R78. -/
structure KeepsMessage (s t : State) : Prop where
  eq_of_ports : t = { s with phase := t.phase, fault := t.fault, rsp := t.rsp, inputs := t.inputs }
  phase : t.phase = s.phase ∨ t.phase = .done
  rsp : ∀ r, t.rsp = some r → s.rsp = some r ∨ r.wf = true

namespace KeepsMessage
variable {s t u : State}

theorem refl (s : State) : KeepsMessage s s := ⟨rfl, .inl rfl, fun _ h => .inl h⟩

theorem trans (h₁ : KeepsMessage s t) (h₂ : KeepsMessage t u) : KeepsMessage s u where
  eq_of_ports := by rw [h₂.eq_of_ports, h₁.eq_of_ports]
  phase := h₂.phase.elim (fun h => h ▸ h₁.phase) .inr
  rsp := fun r hr => (h₂.rsp r hr).elim (h₁.rsp r) .inr

theorem nextInput (s : State) : KeepsMessage s (nextInput s) := ⟨rfl, .inl rfl, fun _ h => .inl h⟩

theorem takeResponse (s : State) : KeepsMessage s (takeResponse s) := ⟨rfl, .inl rfl, by simp⟩

theorem raise (c : FaultCode) (s : State) : KeepsMessage s (raise c s) :=
  ⟨rfl, .inl rfl, by rintro r ⟨⟩; exact .inr (wf_statusByte _)⟩

theorem refuse (s : State) : KeepsMessage s (refuse s) :=
  ⟨rfl, .inl rfl, by rintro r ⟨⟩; exact .inr (wf_statusByte _)⟩

theorem respond_enterDone {pl : List Byte} (hpl : Response.wf ⟨0, pl⟩ = true) (s : State) :
    KeepsMessage s (respond 0 pl (enterDone s)) :=
  ⟨rfl, .inr rfl, by rintro r ⟨⟩; exact .inr hpl⟩

end KeepsMessage

/-- A command starts a message, appends a byte or keeps the message (R151 to R156). -/
theorem exec_effects {i : Instr} {s t : State} (h : exec i s = .next t) :
    (∃ m : DigestMode, i = .init (BitVec.ofNat 16 m.size) ∧ t = respond 0 [] (construct m s)) ∨
    (∃ v, i = .update v ∧ s.fault = .none ∧ lengthAtLimit s = false ∧ t = respond 0 [] (appendByte v s)) ∨
    KeepsMessage s t := by
  obtain ⟨ds, m, rfl, hm, he⟩ | ⟨ds, -, -, he⟩ | ⟨-, -, he⟩ | ⟨v, -, -, -, he⟩ | ⟨v, rfl, hf, hl, he⟩ |
    ⟨-, -, he⟩ | ⟨-, -, he⟩ := exec_cases i s
  all_goals obtain rfl := Host.Outcome.next.inj (h.symm.trans he)
  · exact .inl ⟨m, by rw [modeOfSize_eq_some.mp hm], rfl⟩
  · exact .inr (.inr (.raise _ s))
  · exact .inr (.inr (.refuse s))
  · exact .inr (.inr (.raise _ s))
  · exact .inr (.inl ⟨v, rfl, hf, hl, rfl⟩)
  · exact .inr (.inr (.respond_enterDone (wf_digest s) s))
  · exact .inr (.inr (.respond_enterDone (wf_hexdigest s) s))

/-- A step resets the engine, starts a message, appends a byte or keeps the message (R70, R160, R200). -/
theorem step_effects {s t : State} (h : step s = .next t) :
    (portEvent s = .reset ∧ t = resetEvent (nextInput s)) ∨
    (∃ m : DigestMode, portEvent s = .accepted (encode (.init (BitVec.ofNat 16 m.size))) ∧
      t = respond 0 [] (construct m (nextInput s))) ∨
    (∃ v, portEvent s = .accepted (encode (.update v)) ∧ s.fault = .none ∧ lengthAtLimit s = false ∧
      t = respond 0 [] (appendByte v (nextInput s))) ∨
    KeepsMessage s t := by
  obtain ⟨-, rfl⟩ | hr | ⟨-, rfl⟩ | ⟨w, hw, ht⟩ | ⟨-, rfl⟩ := step_cases h
  case inr.inr.inr.inl =>
    cases hd : decode w with
    | error e =>
      obtain rfl := Host.Outcome.next.inj (ht.symm.trans (runWord_of_error hd _))
      exact .inr (.inr (.inr (.trans (.nextInput s) (.raise _ _))))
    | ok i =>
      rw [runWord_of_ok hd] at ht
      rw [eq_encode_of_decode hd] at hw
      obtain ⟨m, rfl, rfl⟩ | ⟨v, rfl, hf, hl, rfl⟩ | hk := exec_effects ht
      · exact .inr (.inl ⟨m, hw, rfl⟩)
      · exact .inr (.inr (.inl ⟨v, hw, hf, hl, rfl⟩))
      · exact .inr (.inr (.inr (.trans (.nextInput s) hk)))
  · exact .inr (.inr (.inr (.refl _)))
  · exact .inl hr
  · exact .inr (.inr (.inr (.trans (.nextInput s) (.takeResponse _))))
  · exact .inr (.inr (.inr (.nextInput s)))

end Sys2Proof.Machine
end

section
/-! The state invariant of R34: it holds of the empty message, appending a byte and everything that keeps the message
preserve it, and so does every step. -/

namespace Sys2Proof.Machine

/-- One more byte in the chain when it completes no block. -/
theorem chainOf_append_of_ne (m : DigestMode) (d : List Byte) (v : Byte) (h : d.length % 64 ≠ 63) :
    chainOf m (d ++ [v]) = chainOf m d := by
  rw [chainOf, completeBlocks_append_of_ne d v h, chainOf]

/-- The byte that completes a block: the chain takes the tail and that byte as its next block (R150). -/
theorem chainOf_append_of_eq (m : DigestMode) (d : List Byte) (v : Byte) (h : d.length % 64 = 63) :
    chainOf m (d ++ [v]) = (chainOf m d).block (ofList (tailBytes d ++ [v])) := by
  rw [chainOf, completeBlocks_append_of_eq d v h, List.foldl_append, chainOf]
  rfl

/-- A counter that does not overflow its width advances by the integer sum (R23). -/
theorem toNat_addBits {w : Nat} (n : BitVec w) {k : Nat} (h : n.toNat + k < 2 ^ w) :
    (addBits n k).toNat = n.toNat + k := by
  rw [addBits, BitVec.toNat_add, BitVec.toNat_ofNat, Nat.add_mod_mod, Nat.mod_eq_of_lt h]

/-- A register holds a number that fits it exactly when its value is that number. -/
theorem eq_ofNat_iff {w k : Nat} (x : BitVec w) (h : k < 2 ^ w) : x = BitVec.ofNat w k ↔ x.toNat = k := by
  rw [← BitVec.toNat_inj, BitVec.toNat_ofNat, Nat.mod_eq_of_lt h]

/-- A number that fits a narrow register fits a wider one. -/
theorem lt_two_pow_of_le {k m n : Nat} (h : k < 2 ^ m) (hmn : m ≤ n) : k < 2 ^ n :=
  h.trans_le (Nat.pow_le_pow_right (by decide) hmn)

/-- An empty BUF holds the empty tail. -/
theorem tail_of_buflen_zero {s : State} (h : s.buflen = 0) : tail s = [] :=
  List.eq_nil_of_length_eq_zero (by rw [length_tail, h]; rfl)

/-- The registers a construction writes meet the invariant: they are those of the empty message (R36, R151). -/
theorem inv_of_empty {s : State} (hmsg : s.msg = []) (hlen : s.buflen = 0) (hn : s.n = 0) (hh : s.h = iv s.ds)
    (hsigma : s.sigma = 0) (hphase : s.phase = .accumulating) (hrsp : ∀ r, s.rsp = some r → r.wf = true) : s.Inv where
  msg_le := by simp [hmsg]
  buflen_eq := by simp [hmsg, hlen]
  n_eq := by simp only [hmsg, hn, List.length_nil, BitVec.ofNat_eq_ofNat, BitVec.toNat_zero, Nat.zero_div, Nat.mul_zero]
  tail_eq := by simp [hmsg, tail_of_buflen_zero hlen, tailBytes]
  h_eq := by rw [hmsg, hh]; rfl
  sigma_eq := by rw [hmsg, hsigma]; rfl
  phase_ne := by simp [hphase]
  rsp_wf := hrsp

namespace State.Inv
variable {s t : State}

/-- What keeps the message keeps the invariant. -/
theorem of_keepsMessage (hi : s.Inv) (hk : KeepsMessage s t) : t.Inv := by
  have hphase : t.phase ≠ .finalizing := by
    obtain hp | hp := hk.phase
    · exact hp ▸ hi.phase_ne
    · simp [hp]
  have hrsp : ∀ r, t.rsp = some r → r.wf = true := fun r hr => (hk.rsp r hr).elim (hi.rsp_wf r) id
  rw [hk.eq_of_ports]
  exact ⟨hi.msg_le, hi.buflen_eq, hi.n_eq, hi.tail_eq, hi.h_eq, hi.sigma_eq, hphase, hrsp⟩

/-- A successful response with no payload keeps the invariant. -/
theorem respond_empty (hi : s.Inv) : (respond 0 [] s).Inv :=
  ⟨hi.msg_le, hi.buflen_eq, hi.n_eq, hi.tail_eq, hi.h_eq, hi.sigma_eq, hi.phase_ne, by rintro r ⟨⟩; decide⟩

/-- N and BUFLEN together count the bits of the message (R23). -/
theorem n_add_eq (hi : s.Inv) : s.n.toNat + 8 * s.buflen.val = 8 * s.msg.length := by
  have hn := hi.n_eq
  have hb := hi.buflen_eq
  omega

/-- N never reaches 2^64 (R23). -/
theorem n_lt (hi : s.Inv) : s.n.toNat < 2 ^ 64 := by
  have hn := hi.n_eq
  have hm := hi.msg_le
  simp only [Config.maxMessageBytes] at hm
  omega

/-- The step value is all of N (R142). -/
theorem stepValue_toNat (hi : s.Inv) : (stepValue s).toNat = s.n.toNat := by
  simpa [stepValue] using hi.n_lt

/-- The step value is the count of the loop over the complete blocks (R150, R153). -/
theorem stepValue_eq (hi : s.Inv) : stepValue s = (chainOf s.ds s.msg).n := by
  apply BitVec.eq_of_toNat_eq
  rw [chainOf_n, ← hi.n_eq, hi.stepValue_toNat, Nat.mod_eq_of_lt hi.n_lt]

/-- BUFLEN is 63 exactly when the next byte completes a block. -/
theorem buflen_eq_63_iff (hi : s.Inv) : s.buflen = 63 ↔ s.msg.length % 64 = 63 := by
  rw [← hi.buflen_eq, Fin.ext_iff]
  rfl

/-- The condition of LengthOverflow holds exactly at the longest message (R183). -/
theorem lengthAtLimit_iff (hi : s.Inv) : lengthAtLimit s = true ↔ s.msg.length = Config.maxMessageBytes := by
  have hn := hi.n_eq
  have hm := hi.msg_le
  have hlast : s.n = BitVec.ofNat 512 Config.lastCount ↔ s.n.toNat = Config.lastCount :=
    eq_ofNat_iff _ (lt_two_pow_of_le (m := 64) (by decide) (by decide))
  simp only [lengthAtLimit, Bool.and_eq_true, decide_eq_true_eq, hlast, hi.buflen_eq_63_iff]
  simp only [Config.maxMessageBytes, Config.lastCount] at hm ⊢
  omega

/-- UPDATE before the 64th byte of a block keeps the invariant (R152). -/
theorem appendByte_of_ne (hi : s.Inv) (v : Byte) (hlen : s.msg.length < Config.maxMessageBytes)
    (h63 : s.buflen ≠ 63) : (appendByte v s).Inv := by
  have hmod : s.msg.length % 64 ≠ 63 := fun h => h63 (hi.buflen_eq_63_iff.mpr h)
  have hdiv : (s.msg ++ [v]).length / 64 = s.msg.length / 64 := by simp; omega
  have hb := hi.buflen_eq
  rw [Machine.appendByte_of_ne v s h63]
  exact {
    msg_le := by simpa using hlen
    buflen_eq := by
      simp only [List.length_append, List.length_singleton]
      rw [Fin.val_add_one_of_lt' (by omega)]
      omega
    n_eq := hi.n_eq.trans (by rw [hdiv])
    tail_eq := by rw [tailBytes_append_of_ne _ v hmod, ← hi.tail_eq]; exact tail_putCell s _ v h63 rfl rfl
    h_eq := by rw [chainOf_append_of_ne _ _ v hmod]; exact hi.h_eq
    sigma_eq := by rw [chainOf_append_of_ne _ _ v hmod]; exact hi.sigma_eq
    phase_ne := by simp
    rsp_wf := hi.rsp_wf }

/-- UPDATE with the 64th byte of a block keeps the invariant: Absorb is one pass of the loop of R150 (R153). -/
theorem appendByte_of_eq (hi : s.Inv) (v : Byte) (hlen : s.msg.length < Config.maxMessageBytes)
    (h63 : s.buflen = 63) : (appendByte v s).Inv := by
  have hmod : s.msg.length % 64 = 63 := hi.buflen_eq_63_iff.mp h63
  have hblock : bufBlock (putCell v s) = ofList (tailBytes s.msg ++ [v]) := by
    rw [bufBlock_putCell s v h63, hi.tail_eq]
  have hstep : stepValue (putCell v s) = (chainOf s.ds s.msg).n := hi.stepValue_eq
  have hn := hi.n_eq
  simp only [Config.maxMessageBytes] at hlen
  rw [Machine.appendByte_of_eq v s h63]
  exact {
    msg_le := by simp only [List.length_append, List.length_singleton, Config.maxMessageBytes]; omega
    buflen_eq := by simp; omega
    n_eq := by
      refine (toNat_addBits s.n (lt_two_pow_of_le (m := 64) ?_ (by decide))).trans ?_
      · omega
      · simp only [List.length_append, List.length_singleton]; omega
    tail_eq := by rw [tailBytes_append_of_eq _ v hmod]; exact tail_of_buflen_zero rfl
    h_eq := by simp [chainOf_append_of_eq _ _ v hmod, Chain.block, hblock, hstep, hi.h_eq]
    sigma_eq := by simp [chainOf_append_of_eq _ _ v hmod, Chain.block, hblock, hi.sigma_eq]
    phase_ne := by simp
    rsp_wf := hi.rsp_wf }

/-- UPDATE below the length limit keeps the invariant. -/
theorem appendByte (hi : s.Inv) (v : Byte) (hlen : s.msg.length < Config.maxMessageBytes) : (appendByte v s).Inv := by
  by_cases h63 : s.buflen = 63
  · exact hi.appendByte_of_eq v hlen h63
  · exact hi.appendByte_of_ne v hlen h63

/-- With no LengthOverflow the message is shorter than the longest one (R183). -/
theorem length_lt_of_not_limit (hi : s.Inv) (hl : lengthAtLimit s = false) :
    s.msg.length < Config.maxMessageBytes := by
  refine lt_of_le_of_ne hi.msg_le fun h => ?_
  rw [hi.lengthAtLimit_iff.mpr h] at hl
  cases hl

end State.Inv

/-- Settles O8: the fields of `State.reset`. -/
theorem resetStateHoldsTheDefaults : Obligations.ResetStateHoldsTheDefaults :=
  ⟨rfl, rfl, rfl, rfl, rfl, rfl, rfl, rfl, rfl, rfl⟩

/-- Settles O39: the registers of the state after reset are those of the empty message. -/
theorem resetMeetsTheInvariant : Obligations.ResetMeetsTheInvariant :=
  inv_of_empty rfl rfl rfl rfl rfl rfl (by rintro r ⟨⟩)

/-- Settles O41: `N` and `8 * BUFLEN` are the two parts of the bit length of a message of at most 2^61 − 1 bytes. -/
theorem bitCounterStaysBelowTwoPow64 : Obligations.BitCounterStaysBelowTwoPow64 := by
  intro s hi
  have hsum : s.n.toNat + 8 * s.buflen.val < 2 ^ 64 := by
    have hm := hi.msg_le
    simp only [Config.maxMessageBytes] at hm
    rw [hi.n_add_eq]
    omega
  exact ⟨hi.n_lt, ⟨_, hi.n_eq⟩, hsum, hi.stepValue_toNat, hi.n_add_eq⟩

/-- Settles O40: a step resets the engine or starts a message, both leaving the registers of the empty message, or it
appends a byte below the length limit, or it keeps the message. -/
theorem stepKeepsTheInvariant : Obligations.StepKeepsTheInvariant := by
  intro s t hi h
  obtain ⟨-, rfl⟩ | ⟨m, -, rfl⟩ | ⟨v, -, -, hl, rfl⟩ | hk := step_effects h
  · exact inv_of_empty rfl rfl rfl rfl rfl rfl (by rintro r ⟨⟩)
  · exact inv_of_empty rfl rfl rfl rfl rfl rfl (by rintro r ⟨⟩; decide)
  · have hin : (nextInput s).Inv := hi.of_keepsMessage (.nextInput s)
    exact (hin.appendByte v (hin.length_lt_of_not_limit hl)).respond_empty
  · exact hi.of_keepsMessage hk

end Sys2Proof.Machine
end

section
/-! A digest, further appends and another digest (R32, R158, R159): under the invariant DIGEST answers with the
reference function of the message, and a run of UPDATEs appends its bytes. -/

namespace Sys2Proof.Machine

/-- The first command of a list runs first. -/
theorem execAll_cons {i : Instr} {s t : State} (h : exec i s = .next t) (is : List Instr) :
    execAll (i :: is) s = execAll is t := by
  simp only [execAll, h]

/-- Running one list of commands after another. -/
theorem execAll_append {is : List Instr} {s t : State} (h : execAll is s = .next t) (js : List Instr) :
    execAll (is ++ js) s = execAll js t := by
  induction is generalizing s with
  | nil => cases h; rfl
  | cons i is ih =>
    cases he : exec i s with
    | next u =>
      rw [execAll_cons he] at h
      rw [List.cons_append, execAll_cons he, ih h]
    | fault r => simp [execAll, he] at h
    | refused r => simp [execAll, he] at h

namespace State.Inv
variable {s : State}

/-- What DIGEST computes from the registers is the reference function of the message (R150, R155, R158). -/
theorem streebog_eq (hi : s.Inv) : streebog s.ds s.msg = some (digestBytes s) := by
  simp only [streebog, if_pos hi.msg_le, digestBytes, final, ← hi.tail_eq, ← hi.h_eq, ← hi.sigma_eq,
    ← hi.stepValue_eq]

/-- A run of UPDATEs within the length bound appends its bytes and raises nothing (R152, R183). -/
theorem execAll_updates (hi : s.Inv) (hf : s.fault = .none) (a : List Byte)
    (hlen : s.msg.length + a.length ≤ Config.maxMessageBytes) :
    ∃ t, execAll (a.map .update) s = .next t ∧ t.Inv ∧ t.fault = .none ∧ t.ds = s.ds ∧ t.msg = s.msg ++ a := by
  induction a generalizing s with
  | nil => exact ⟨s, rfl, hi, hf, rfl, by simp⟩
  | cons v a ih =>
    simp only [List.length_cons] at hlen
    have hlt : s.msg.length < Config.maxMessageBytes := by omega
    have hl : lengthAtLimit s = false := Bool.eq_false_iff.mpr fun h => hlt.ne (hi.lengthAtLimit_iff.mp h)
    have hexec : exec (.update v) s = .next (respond 0 [] (Machine.appendByte v s)) := execUpdate_of_ok v hf hl
    obtain ⟨t, ht, hti, htf, hds, hmsg⟩ := ih (hi.appendByte v hlt).respond_empty (by simpa using hf) (by simp; omega)
    exact ⟨t, (execAll_cons hexec _).trans ht, hti, htf, by simpa using hds, by simpa using hmsg⟩

/-- UPDATEs and a DIGEST answer with the reference function of the longer message and leave its state (R32, R158). -/
theorem execAll_updates_digest (hi : s.Inv) (hf : s.fault = .none) (a : List Byte)
    (hlen : s.msg.length + a.length ≤ Config.maxMessageBytes) :
    ∃ t d, execAll (a.map .update ++ [.digest]) s = .next t ∧ streebog s.ds (s.msg ++ a) = some d ∧
      t.rsp = some ⟨0, d⟩ ∧ t.Inv ∧ t.fault = .none ∧ t.ds = s.ds ∧ t.msg = s.msg ++ a := by
  obtain ⟨u, hu, hui, huf, hds, hmsg⟩ := hi.execAll_updates hf a hlen
  have hdig : exec .digest u = .next (respond 0 (digestBytes u) (enterDone u)) := execDigest_of_ok huf
  exact ⟨_, digestBytes u, by rw [execAll_append hu, execAll_cons hdig]; rfl,
    by rw [← hds, ← hmsg, hui.streebog_eq], rfl, hui.of_keepsMessage (.respond_enterDone (wf_digest u) u), huf, hds, hmsg⟩

end State.Inv

/-- Settles O44: the state after the first DIGEST meets the invariant for the message so far, so the second run is the
first once more. -/
theorem digestAppendDigest : Obligations.DigestAppendDigest := by
  intro s a b hi hf hlen
  obtain ⟨t, d, ht, hd, hrt, hti, htf, hds, hmsg⟩ := hi.execAll_updates_digest hf a (by omega)
  obtain ⟨u, e, hu, he, hru, -⟩ := hti.execAll_updates_digest htf b (by simpa [hmsg] using hlen)
  rw [hds, hmsg] at he
  exact ⟨t, u, d, e, ht, hd, hrt, hu, he, hru⟩

end Sys2Proof.Machine
end

section
/-! Which steps write the mode and the chaining registers (R22 to R24, R27, R37), read off the effects of a step. -/

namespace Sys2Proof.Machine

/-- What keeps the message keeps DS, H, N and SIGMA. -/
theorem KeepsMessage.ds_chain_eq {s t : State} (h : KeepsMessage s t) :
    t.ds = s.ds ∧ t.h = s.h ∧ t.n = s.n ∧ t.sigma = s.sigma := by
  rw [h.eq_of_ports]
  exact ⟨rfl, rfl, rfl, rfl⟩

/-- UPDATE before the 64th byte of a block leaves H, N and SIGMA (R37). -/
theorem appendByte_chain_of_ne (v : Byte) {s : State} (h : s.buflen ≠ 63) :
    (appendByte v s).h = s.h ∧ (appendByte v s).n = s.n ∧ (appendByte v s).sigma = s.sigma := by
  rw [appendByte_of_ne v s h]
  exact ⟨rfl, rfl, rfl⟩

/-- Settles O46: of the effects of a step only the reset and the start of a message write DS. -/
theorem modeChangesOnlyByInitOrReset : Obligations.ModeChangesOnlyByInitOrReset := by
  intro s t h hds
  obtain ⟨he, -⟩ | ⟨m, he, rfl⟩ | ⟨v, -, -, -, rfl⟩ | hk := step_effects h
  · exact .inl he
  · exact .inr he
  · exact absurd (by simp) hds
  · exact absurd hk.ds_chain_eq.1 hds

/-- Settles O47: of the effects of a step the reset, the start of a message and the 64th byte of a block write H, N and
SIGMA; an UPDATE before that byte does not. -/
theorem chainIsWrittenOnlyByInitResetAndFullBlocks : Obligations.ChainIsWrittenOnlyByInitResetAndFullBlocks := by
  intro s t h hchain
  obtain ⟨he, -⟩ | ⟨m, he, -⟩ | ⟨v, he, hf, -, rfl⟩ | hk := step_effects h
  · exact .inl he
  · exact .inr (.inl ⟨m, he⟩)
  · by_cases h63 : s.buflen = 63
    · exact .inr (.inr ⟨v, he, h63, hf⟩)
    · exact absurd (appendByte_chain_of_ne v (s := nextInput s) h63) hchain
  · exact absurd hk.ds_chain_eq.2 hchain

end Sys2Proof.Machine
end

section
/-! Noninterference (R26, R28, R33, D8). All that a step reads of a state to choose what it does is its `View`, and all
that it does is a composition of the named operations `Op`. So a relation between states that have the same view, kept
by every operation, is kept by the step. Three relations are of this kind: states that differ at most in PHASE, in MSG,
and in the cells of BUF at and above BUFLEN. -/

namespace Sys2Proof.Machine

/-- What a step reads of a state to choose what it does and what it answers. -/
structure View where
  event   : PortEvent
  fault   : FaultCode
  atLimit : Bool
  digest  : List Byte

/-- The view of a state. -/
def view (s : State) : View := ⟨portEvent s, s.fault, lengthAtLimit s, digestBytes s⟩

/-- The operations of which every step is composed. -/
inductive Op where
  | nextInput
  | takeResponse
  | resetEvent
  | respond (status : Byte) (payload : List Byte)
  | raise (cause : FaultCode)
  | construct (m : DigestMode)
  | appendByte (v : Byte)
  | enterDone

/-- What an operation does to a state. -/
def Op.run : Op → State → State
  | .nextInput => Machine.nextInput
  | .takeResponse => Machine.takeResponse
  | .resetEvent => Machine.resetEvent
  | .respond status payload => Machine.respond status payload
  | .raise cause => Machine.raise cause
  | .construct m => Machine.construct m
  | .appendByte v => Machine.appendByte v
  | .enterDone => Machine.enterDone

/-- Related states have the same view, and every operation keeps them related. -/
structure KeptByOps (R : State → State → Prop) : Prop where
  view_eq : ∀ {s t}, R s t → view s = view t
  run : ∀ {s t} (op : Op), R s t → R (op.run s) (op.run t)

namespace KeptByOps
variable {R : State → State → Prop} {s t : State}

/-- A command takes the same branch in related states and leaves related states. -/
theorem exec (hR : KeptByOps R) (h : R s t) (i : Instr) : bothNext R (exec i s) (exec i t) := by
  have hf : s.fault = t.fault := congrArg View.fault (hR.view_eq h)
  have hl : lengthAtLimit s = lengthAtLimit t := congrArg View.atLimit (hR.view_eq h)
  have hd : digestBytes s = digestBytes t := congrArg View.digest (hR.view_eq h)
  have hdone := hR.run .enterDone h
  obtain ⟨ds, m, rfl, hm, hs⟩ | ⟨ds, rfl, hm, hs⟩ | ⟨hi, hsf, hs⟩ | ⟨v, rfl, hsf, hsl, hs⟩ | ⟨v, rfl, hsf, hsl, hs⟩ |
    ⟨rfl, hsf, hs⟩ | ⟨rfl, hsf, hs⟩ := exec_cases i s
  · exact ⟨_, _, hs, execInit_of_mode hm t, hR.run (.respond 0 []) (hR.run (.construct m) h)⟩
  · exact ⟨_, _, hs, execInit_of_none hm t, hR.run (.raise _) h⟩
  · have ht : Machine.exec i t = .next (respond (statusByte s.fault) [] t) := by
      rw [hf] at hsf ⊢
      cases i with
      | init ds => exact absurd rfl (hi ds)
      | update v => exact execUpdate_of_faulted v hsf
      | digest => exact execDigest_of_faulted hsf
      | hexdigest => exact execHexdigest_of_faulted hsf
    exact ⟨_, _, hs, ht, hR.run (.respond _ []) h⟩
  · exact ⟨_, _, hs, execUpdate_of_limit v (hf ▸ hsf) (hl ▸ hsl), hR.run (.raise _) h⟩
  · exact ⟨_, _, hs, execUpdate_of_ok v (hf ▸ hsf) (hl ▸ hsl), hR.run (.respond 0 []) (hR.run (.appendByte v) h)⟩
  · exact ⟨_, _, hs, execDigest_of_ok (hf ▸ hsf), hd ▸ hR.run (.respond 0 _) hdone⟩
  · exact ⟨_, _, hs, execHexdigest_of_ok (hf ▸ hsf), hd ▸ hR.run (.respond 0 _) hdone⟩

/-- An accepted word does the same in related states. -/
theorem runWord (hR : KeptByOps R) (h : R s t) (w : CmdWord) : bothNext R (runWord w s) (runWord w t) := by
  cases hw : decode w with
  | ok i =>
    rw [runWord_of_ok hw, runWord_of_ok hw]
    exact hR.exec h i
  | error e => exact ⟨_, _, runWord_of_error hw s, runWord_of_error hw t, hR.run (.raise _) h⟩

/-- A step keeps every such relation. -/
theorem step (hR : KeptByOps R) (h : R s t) : bothNext R (step s) (step t) := by
  have hevent : portEvent s = portEvent t := congrArg View.event (hR.view_eq h)
  have hnext := hR.run .nextInput h
  simp only [Machine.step, ← hevent]
  cases portEvent s with
  | idle => exact ⟨_, _, rfl, rfl, h⟩
  | reset => exact ⟨_, _, rfl, rfl, hR.run .resetEvent hnext⟩
  | taken => exact ⟨_, _, rfl, rfl, hR.run .takeResponse hnext⟩
  | accepted w => exact hR.runWord hnext w
  | nothing => exact ⟨_, _, rfl, rfl, hnext⟩

end KeptByOps

/-- The state with PHASE erased; `sameButPhase` compares states after it. -/
def erasePhase (s : State) : State := { s with phase := .accumulating }

/-- The state with MSG erased; `sameButMsg` compares states after it. -/
def eraseMsg (s : State) : State := { s with msg := [] }

/-- The state with BUF erased; `sameButStale` compares states after it, and their tails. -/
def eraseBuf (s : State) : State := { s with buf := freeCells 0 }

/-- A function that does not see what `E` erases agrees on states that are the same after erasure. -/
theorem eq_of_erased {α : Type} {E : State → State} {f : State → α} (hf : ∀ s, f (E s) = f s) {s t : State}
    (h : E s = E t) : f s = f t := by
  rw [← hf s, h, hf t]

/-- What the view does not show and no operation carries elsewhere has no effect. -/
theorem keptByOps_of_erase {E : State → State} (hview : ∀ s, view (E s) = view s)
    (hrun : ∀ (op : Op) (s : State), E (op.run (E s)) = E (op.run s)) : KeptByOps fun s t => E s = E t :=
  ⟨eq_of_erased hview, fun op => eq_of_erased (f := fun s => E (op.run s)) (hrun op)⟩

/-- UPDATE overwrites PHASE and extends MSG, whatever they hold, and reads them for nothing else (R152). -/
theorem appendByte_with (v : Byte) (s : State) (p : Phase) (d : List Byte) :
    appendByte v { s with phase := p, msg := d } = { appendByte v s with msg := d ++ [v] } := by
  by_cases h63 : s.buflen = 63
  · rw [appendByte_of_eq v s h63, appendByte_of_eq v { s with phase := p, msg := d } h63]
    rfl
  · rw [appendByte_of_ne v s h63, appendByte_of_ne v { s with phase := p, msg := d } h63]
    rfl

theorem erasePhase_run (op : Op) (s : State) : erasePhase (op.run (erasePhase s)) = erasePhase (op.run s) := by
  cases op with
  | appendByte v => exact congrArg erasePhase (appendByte_with v s .accumulating s.msg)
  | _ => rfl

theorem eraseMsg_run (op : Op) (s : State) : eraseMsg (op.run (eraseMsg s)) = eraseMsg (op.run s) := by
  cases op with
  | appendByte v => exact (congrArg eraseMsg (appendByte_with v s s.phase []) :)
  | _ => rfl

/-- States that are the same after BUF is erased differ in BUF only. -/
theorem eq_with_buf {s t : State} (h : eraseBuf s = eraseBuf t) : t = { s with buf := t.buf } :=
  congrArg (fun u => { u with buf := t.buf }) h.symm

/-- UPDATE reads the cells below BUFLEN only: the block it completes is the tail and the new byte (R152). -/
theorem sameButStale_appendByte (v : Byte) {s t : State} (h : sameButStale s t) :
    sameButStale (appendByte v s) (appendByte v t) := by
  obtain ⟨hbuf, htail⟩ := h
  obtain ⟨cells, rfl⟩ : ∃ cells, t = { s with buf := cells } := ⟨_, eq_with_buf hbuf⟩
  by_cases h63 : s.buflen = 63
  · rw [appendByte_of_eq v s h63, appendByte_of_eq v { s with buf := cells } h63, bufBlock_putCell s v h63,
      bufBlock_putCell { s with buf := cells } v h63, htail]
    exact ⟨rfl, (tail_of_buflen_zero rfl).trans (tail_of_buflen_zero rfl).symm⟩
  · rw [appendByte_of_ne v s h63, appendByte_of_ne v { s with buf := cells } h63]
    exact ⟨rfl, ((tail_putCell s _ v h63 rfl rfl).trans (congrArg (· ++ [v]) htail)).trans
      (tail_putCell { s with buf := cells } _ v h63 rfl rfl).symm⟩

/-- The digest reads BUF through the tail only (R154). -/
theorem view_eq_of_sameButStale {s t : State} (h : sameButStale s t) : view s = view t := by
  obtain ⟨hbuf, htail⟩ := h
  obtain ⟨cells, rfl⟩ : ∃ cells, t = { s with buf := cells } := ⟨_, eq_with_buf hbuf⟩
  simp only [view, digestBytes, ← htail]
  rfl

/-- The operations other than appending a byte read no cell at all. -/
theorem keptByOps_sameButStale : KeptByOps sameButStale where
  view_eq := view_eq_of_sameButStale
  run {s t} op h := by
    obtain ⟨hbuf, htail⟩ := h
    have herase (hop : ∀ u, eraseBuf (op.run (eraseBuf u)) = eraseBuf (op.run u)) :
        eraseBuf (op.run s) = eraseBuf (op.run t) := eq_of_erased (f := fun u => eraseBuf (op.run u)) hop hbuf
    have hempty {u u' : State} (hu : u.buflen = 0) (hu' : u'.buflen = 0) : tail u = tail u' := by
      rw [tail_of_buflen_zero hu, tail_of_buflen_zero hu']
    cases op with
    | appendByte v => exact sameButStale_appendByte v ⟨hbuf, htail⟩
    | resetEvent => exact ⟨herase fun _ => rfl, hempty rfl rfl⟩
    | construct m => exact ⟨herase fun _ => rfl, hempty rfl rfl⟩
    | _ => exact ⟨herase fun _ => rfl, htail⟩

/-- Settles O49: PHASE is in no view and every operation only overwrites it. -/
theorem phaseHasNoEffect : Obligations.PhaseHasNoEffect := fun _ _ =>
  (keptByOps_of_erase (E := erasePhase) (fun _ => rfl) erasePhase_run).step

/-- Settles O50: MSG is in no view and every operation only writes it to itself. -/
theorem messageIsGhost : Obligations.MessageIsGhost := fun _ _ =>
  (keptByOps_of_erase (E := eraseMsg) (fun _ => rfl) eraseMsg_run).step

/-- Settles O51: BUF is read through the tail only. -/
theorem staleCellsAreNeverRead : Obligations.StaleCellsAreNeverRead := fun _ _ => keptByOps_sameButStale.step

end Sys2Proof.Machine
end

section
/-! The scan order of a word (R53): a bit of a word is a bit of one of its bytes. -/

namespace Sys2Proof.Machine

/-- Settles O24: counted from bit 0, scan position `j` is bit `7 − (j mod 8)` of byte `7 − floor(j / 8)` of the word. -/
theorem scanPositionsOfAWord : Obligations.ScanPositionsOfAWord := by
  intro b k j
  have hbyte := extract_word64_eq_byte b k ⟨7 - j.val / 8, by omega⟩
  have hindex : 8 * k.val + 7 - j.val / 8 = 8 * k.val + (7 - j.val / 8) := by omega
  have hbit : 63 - j.val = 8 * (7 - j.val / 8) + (7 - j.val % 8) := by omega
  simp only [hindex, hbit, ← hbyte, BitVec.getLsbD_extractLsb', show 7 - j.val % 8 < 8 by omega, decide_true,
    Bool.true_and]

end Sys2Proof.Machine
end

section
/-! A host that presents commands and takes their responses (R61, R70, R85). A command reads neither the response port
nor what the host will drive, so it does at the ports what it does when it is executed by itself. -/

namespace Sys2Proof

/-- The decoder reads the word of a command as that command (R71 to R76). -/
@[simp] theorem decode_encode (i : Instr) : decode (encode i) = .ok i := by
  cases i with
  | init ds => simp [decode, encode]
  | update v =>
    have hhigh : (v.setWidth 16).extractLsb' 8 8 = 0 := by ext j hj; simp
    have hlow : (v.setWidth 16).extractLsb' 0 8 = v := by ext j hj; simp [hj, show j < 16 by omega]
    simp [decode, encode, hhigh, hlow]
  | digest => simp [decode, encode]
  | hexdigest => simp [decode, encode]

end Sys2Proof

namespace Sys2Proof.Machine

/-- The state with the given response port and the given coming port events. -/
def withPorts (rsp : Option Response) (inputs : List Pins) (s : State) : State := { s with rsp := rsp, inputs := inputs }

/-- UPDATE leaves the ports and reads them for nothing (R152). -/
theorem appendByte_withPorts (v : Byte) (q : Option Response) (ins : List Pins) (s : State) :
    appendByte v (withPorts q ins s) = withPorts q ins (appendByte v s) := by
  by_cases h63 : s.buflen = 63
  · rw [appendByte_of_eq v s h63, appendByte_of_eq v (withPorts q ins s) h63]
    rfl
  · rw [appendByte_of_ne v s h63, appendByte_of_ne v (withPorts q ins s) h63]
    rfl

/-- UPDATE, DIGEST and HEXDIGEST are refused while a fault stands (R184). -/
theorem exec_of_faulted {i : Instr} (hi : ∀ ds, i ≠ .init ds) {s : State} (h : s.fault ≠ .none) :
    exec i s = .next (refuse s) := by
  cases i with
  | init ds => exact absurd rfl (hi ds)
  | update v => exact execUpdate_of_faulted v h
  | digest => exact execDigest_of_faulted h
  | hexdigest => exact execHexdigest_of_faulted h

/-- A command gives one response and one next state whatever stands at the ports, and leaves what the host will
drive (R70, R160). -/
theorem exec_withPorts (i : Instr) (s : State) :
    ∃ u r, ∀ q ins, exec i (withPorts q ins s) = .next (withPorts (some r) ins u) := by
  obtain ⟨ds, m, rfl, hm, -⟩ | ⟨ds, rfl, hm, -⟩ | ⟨hi, hf, -⟩ | ⟨v, rfl, hf, hl, -⟩ | ⟨v, rfl, hf, hl, -⟩ |
    ⟨rfl, hf, -⟩ | ⟨rfl, hf, -⟩ := exec_cases i s
  · exact ⟨construct m s, ⟨0, []⟩, fun q ins => execInit_of_mode hm (withPorts q ins s)⟩
  · exact ⟨raise .invalidParameter s, ⟨statusByte (s.fault.latch .invalidParameter), []⟩,
      fun q ins => execInit_of_none hm (withPorts q ins s)⟩
  · exact ⟨s, ⟨statusByte s.fault, []⟩, fun q ins => exec_of_faulted (s := withPorts q ins s) hi hf⟩
  · exact ⟨raise .lengthOverflow s, ⟨statusByte (s.fault.latch .lengthOverflow), []⟩,
      fun q ins => execUpdate_of_limit (s := withPorts q ins s) v hf hl⟩
  · refine ⟨appendByte v s, ⟨0, []⟩, fun q ins => (execUpdate_of_ok (s := withPorts q ins s) v hf hl).trans ?_⟩
    rw [appendByte_withPorts]
    rfl
  · exact ⟨enterDone s, ⟨0, digestBytes s⟩, fun q ins => execDigest_of_ok (s := withPorts q ins s) hf⟩
  · exact ⟨enterDone s, ⟨0, hex (digestBytes s)⟩, fun q ins => execHexdigest_of_ok (s := withPorts q ins s) hf⟩

/-- A command presented to a free port is executed (R70, R160). -/
theorem step_presentWord (i : Instr) (ins : List Pins) (s : State) :
    step (withPorts none (presentWord (encode i) :: ins) s) = exec i (withPorts none ins s) :=
  runWord_of_ok (decode_encode i) _

/-- A response taken frees the port and changes nothing else (R35, R70). -/
theorem step_takePins (r : Response) (ins : List Pins) (s : State) :
    step (withPorts (some r) (takePins :: ins) s) = .next (withPorts none ins s) := rfl

/-- The first step of a run that does not stop. -/
theorem run_succ {s t : State} (h : step s = .next t) (k : Nat) : core.run (k + 1) s = core.run k t := by
  simp only [Host.Core.run, core, h]

/-- The responses taken from the first step of a run on. -/
theorem takenResponses_succ {s t : State} (h : step s = .next t) (k : Nat) :
    takenResponses (k + 1) s = (if portEvent s = .taken then s.rsp.toList else []) ++ takenResponses k t := by
  simp only [takenResponses, h]

/-- The responses of a list of commands, the first command's first. -/
theorem execResponses_cons {i : Instr} {s t : State} (h : exec i s = .next t) (is : List Instr) :
    execResponses (i :: is) s = t.rsp.toList ++ execResponses is t := by
  simp only [execResponses, h]

/-- Driving a command takes two steps: they leave what the command leaves with the port free, and the host takes the
command's response (R70, R196). -/
theorem drive_command {i : Instr} {s u : State} {r : Response}
    (h : ∀ q ins, exec i (withPorts q ins s) = .next (withPorts (some r) ins u)) (ins : List Pins) (k : Nat) :
    core.run (k + 2) (withPorts none (drive (.command i) ++ ins) s) = core.run k (withPorts none ins u) ∧
    takenResponses (k + 2) (withPorts none (drive (.command i) ++ ins) s) =
      r :: takenResponses k (withPorts none ins u) := by
  have hpresent := (step_presentWord i (takePins :: ins) s).trans (h none _)
  have htake := step_takePins r ins u
  constructor
  · exact (run_succ hpresent _).trans (run_succ htake _)
  · exact (takenResponses_succ hpresent _).trans (takenResponses_succ htake _)

/-- Driving a list of commands does what executing them does, whatever stands at the ports when they are executed. -/
theorem driveAll_commands (is : List Instr) (s : State) (q : Option Response) (ins rest : List Pins) :
    (∃ t, execAll is (withPorts q rest s) = .next t ∧
      core.run (2 * is.length) (withPorts none (driveAll (is.map .command) ++ rest) s) = .next { t with rsp := none }) ∧
    takenResponses (2 * is.length) (withPorts none (driveAll (is.map .command) ++ rest) s) =
      execResponses is (withPorts q ins s) := by
  induction is generalizing s q with
  | nil => exact ⟨⟨_, rfl, rfl⟩, rfl⟩
  | cons i is ih =>
    obtain ⟨u, r, hexec⟩ := exec_withPorts i s
    obtain ⟨hrun, htaken⟩ := drive_command hexec (driveAll (is.map .command) ++ rest) (2 * is.length)
    obtain ⟨⟨t, ht, hrest⟩, hresponses⟩ := ih u (some r)
    have hdrive : driveAll ((i :: is).map .command) ++ rest =
        drive (.command i) ++ (driveAll (is.map .command) ++ rest) := by simp [driveAll]
    rw [List.length_cons, Nat.mul_succ, hdrive]
    exact ⟨⟨t, (execAll_cons (hexec q rest) is).trans ht, hrun.trans hrest⟩,
      htaken.trans ((congrArg (r :: ·) hresponses).trans (execResponses_cons (hexec q ins) is).symm)⟩

/-- Settles O13, by induction on the commands: each is executed at the ports as by itself, and the next does not see
that its response has been taken. -/
theorem drivingTheHostPortsRunsTheCommands : Obligations.DrivingTheHostPortsRunsTheCommands := by
  intro is s rest hrsp hinputs
  obtain ⟨s, rfl⟩ : ∃ u, s = withPorts none (driveAll (is.map .command) ++ rest) u :=
    ⟨s, by rw [← hrsp, ← hinputs]; rfl⟩
  obtain ⟨⟨t, hexec, hrun⟩, htaken⟩ := driveAll_commands is s none (driveAll (is.map .command) ++ rest) rest
  exact ⟨t, hexec, hrun, htaken⟩

end Sys2Proof.Machine
end

section
/-! The decoder (R71 to R77). A word decodes to a command exactly when it is that command's word, which is a condition on
its three fields; the match and mask pairs and the illegal words are read off the fields. -/

namespace Sys2Proof

open Laws.EncodeFields (opcodeOf operandOf)

/-- Decoder and encoder agree (R71 to R76). -/
theorem decode_eq_ok_iff {w : CmdWord} {i : Instr} : decode w = .ok i ↔ w = encode i :=
  ⟨eq_encode_of_decode, fun h => h ▸ decode_encode i⟩

/-- Settles O2: what decodes to a command is put together from that command's fields, and what is put together decodes. -/
theorem decodeIsTheInverseOfEncode : Obligations.DecodeIsTheInverseOfEncode := fun _ _ => decode_eq_ok_iff

/-- A word is put together from given fields exactly when it has them (R71). -/
theorem eq_cmdWord_iff {w : CmdWord} {op rsv : BitVec 8} {imm : BitVec 16} :
    w = cmdWord op rsv imm ↔ opField w = op ∧ rsvField w = rsv ∧ immField w = imm := by
  constructor
  · rintro rfl
    simp
  · rintro ⟨rfl, rfl, rfl⟩
    exact (cmdWord_fields w).symm

/-- A word decodes to a command exactly when it has that command's opcode, a zero reserved byte and its operand. -/
theorem decode_eq_ok_iff_fields {w : CmdWord} {i : Instr} :
    decode w = .ok i ↔ opField w = opcodeOf i ∧ rsvField w = 0 ∧ immField w = operandOf i := by
  have hencode : encode i = cmdWord (opcodeOf i) 0 (operandOf i) := by cases i <;> rfl
  rw [decode_eq_ok_iff, hencode, eq_cmdWord_iff]

section
/-! A mask acts on each field by itself (R71). -/
variable (w m : CmdWord)

theorem opField_and : opField (w &&& m) = opField w &&& opField m := BitVec.extractLsb'_and

theorem rsvField_and : rsvField (w &&& m) = rsvField w &&& rsvField m := BitVec.extractLsb'_and

theorem immField_and : immField (w &&& m) = immField w &&& immField m := BitVec.extractLsb'_and

end

/-- A mask that keeps the opcode, the reserved byte and part of the operand compares those (R76). -/
theorem and_cmdWord_eq_iff {w : CmdWord} {op : BitVec 8} {imm immMask : BitVec 16} :
    w &&& cmdWord 0xFF 0xFF immMask = cmdWord op 0 imm ↔
      opField w = op ∧ rsvField w = 0 ∧ immField w &&& immMask = imm := by
  have hkeep (x : BitVec 8) : x &&& 0xFF = x := BitVec.and_allOnes
  rw [eq_cmdWord_iff, opField_and, rsvField_and, immField_and, opField_cmdWord, rsvField_cmdWord, immField_cmdWord,
    hkeep, hkeep]

/-- `IMM` is its two bytes (R71). -/
theorem immField_toNat (w : CmdWord) : (immField w).toNat = 256 * (immHigh w).toNat + (immLow w).toNat := by
  simp only [immField, immHigh, immLow, BitVec.extractLsb'_toNat, Nat.shiftRight_eq_div_pow]
  omega

/-- `IMM` is a byte exactly when its high byte is zero and its low byte is that byte (R74). -/
theorem immField_eq_byte_iff {w : CmdWord} {v : BitVec 8} :
    immField w = v.setWidth 16 ↔ immHigh w = 0 ∧ immLow w = v := by
  have hcut := immField_toNat w
  bv_omega

/-- The mask of the high byte of `IMM` compares that byte (R76). -/
theorem immField_and_high_eq_zero_iff {w : CmdWord} : immField w &&& 0xFF00#16 = 0#16 ↔ immHigh w = 0 := by
  have hbits : ∀ j (hj : j < 16), (0xFF00#16)[j] = decide (8 ≤ j) := by decide
  have hmask : immField w &&& 0xFF00#16 = (immHigh w).setWidth 16 <<< 8 := by
    ext j hj
    by_cases h8 : j < 8
    · simp [hbits, h8]
    · simp [hbits, h8, immHigh, immField, Nat.le_of_not_lt h8, show j - 8 < 8 by omega]
  rw [hmask]
  bv_omega

/-- Settles O3: each pair compares the opcode, the reserved byte and the operand bits that the command fixes. -/
theorem decodeByMatchAndMask : Obligations.DecodeByMatchAndMask := by
  intro w
  have hinit : w &&& 0xFFFF0000 = 0x01000000 ↔ decode w = .ok (.init (immField w)) := by
    refine (and_cmdWord_eq_iff (op := 1) (imm := 0) (immMask := 0)).trans ?_
    simp [decode_eq_ok_iff_fields, opcodeOf, operandOf]
  have hupdate : w &&& 0xFFFFFF00 = 0x02000000 ↔ decode w = .ok (.update (immLow w)) := by
    refine (and_cmdWord_eq_iff (op := 2) (imm := 0) (immMask := 0xFF00)).trans ?_
    simp [decode_eq_ok_iff_fields, opcodeOf, operandOf, immField_and_high_eq_zero_iff, immField_eq_byte_iff]
  have hall (i : Instr) : w &&& 0xFFFFFFFF = encode i ↔ decode w = .ok i := by
    rw [decode_eq_ok_iff]
    exact iff_of_eq (congrArg (· = encode i) BitVec.and_allOnes)
  refine ⟨hinit, hupdate, hall .digest, hall .hexdigest, fun h1 h2 h3 h4 => ?_⟩
  cases hw : decode w with
  | error e => exact ⟨e, rfl⟩
  | ok i =>
    obtain ⟨-, -, himm⟩ := decode_eq_ok_iff_fields.mp hw
    cases i with
    | init ds => exact absurd (hinit.mpr (by rw [hw, himm]; rfl)) h1
    | update v => exact absurd (hupdate.mpr (by rw [hw, (immField_eq_byte_iff.mp himm).2])) h2
    | digest => exact absurd ((hall .digest).mpr hw) h3
    | hexdigest => exact absurd ((hall .hexdigest).mpr hw) h4

/-- The words that decode to a command, by their fields (R72 to R76). -/
theorem exists_decode_eq_ok_iff {w : CmdWord} :
    (∃ i, decode w = .ok i) ↔ rsvField w = 0 ∧
      (opField w = 1 ∨ (opField w = 2 ∧ immHigh w = 0) ∨ ((opField w = 3 ∨ opField w = 4) ∧ immField w = 0)) := by
  simp only [decode_eq_ok_iff_fields]
  constructor
  · rintro ⟨i, hop, hrsv, himm⟩
    refine ⟨hrsv, ?_⟩
    cases i with
    | init ds => exact .inl hop
    | update v => exact .inr (.inl ⟨hop, (immField_eq_byte_iff.mp himm).1⟩)
    | digest => exact .inr (.inr ⟨.inl hop, himm⟩)
    | hexdigest => exact .inr (.inr ⟨.inr hop, himm⟩)
  · rintro ⟨hrsv, hop | ⟨hop, hhigh⟩ | ⟨hop | hop, himm⟩⟩
    · exact ⟨.init (immField w), hop, hrsv, rfl⟩
    · exact ⟨.update (immLow w), hop, hrsv, immField_of_high_zero w hhigh⟩
    · exact ⟨.digest, hop, hrsv, himm⟩
    · exact ⟨.hexdigest, hop, hrsv, himm⟩

/-- A word decodes to no command exactly when it decodes to a reason of illegality. -/
theorem exists_decode_eq_error_iff {w : CmdWord} : (∃ e, decode w = .error e) ↔ ¬ ∃ i, decode w = .ok i := by
  cases decode w <;> simp

/-- The illegal words of R77, by their fields: an opcode that is neither 0 nor above 4 is one of the four. -/
theorem exists_decode_eq_error_iff_fields {w : CmdWord} :
    (∃ e, decode w = .error e) ↔
      (opField w = 0 ∨ 5 ≤ (opField w).toNat ∨ rsvField w ≠ 0 ∨ (opField w = 2 ∧ immHigh w ≠ 0) ∨
        ((opField w = 3 ∨ opField w = 4) ∧ immField w ≠ 0)) := by
  rw [exists_decode_eq_error_iff, exists_decode_eq_ok_iff]
  bv_omega

end Sys2Proof

namespace Sys2Proof.Machine

/-- What raising IllegalCommand writes and answers (R182, R186). -/
theorem raise_illegalCommand (s : State) :
    raise .illegalCommand s = { s with
      fault := if s.fault = .none then .illegalCommand else s.fault
      rsp := some ⟨if s.fault = .none then 2 else statusByte s.fault, []⟩ } := by
  have hstatus : statusByte (s.fault.latch .illegalCommand) = if s.fault = .none then 2 else statusByte s.fault := by
    rw [FaultCode.latch]
    split <;> rfl
  rw [← hstatus]
  rfl

/-- Settles O4: the illegal words are those that meet no command's condition on the fields, and each takes the fault. -/
theorem illegalWordsRaiseIllegalCommand : Obligations.IllegalWordsRaiseIllegalCommand := by
  refine ⟨fun w => exists_decode_eq_error_iff_fields, fun w e s hw => ?_, ⟨.unassignedOpcode, rfl⟩, ⟨.reservedBits, rfl⟩⟩
  rw [runWord_of_error hw, raise_illegalCommand]

/-- Settles O1: the decoder evaluated on each word. -/
theorem wordsOfTheSpecDecode : Obligations.WordsOfTheSpecDecode :=
  ⟨rfl, rfl, rfl, rfl, rfl, rfl, rfl, rfl, rfl, rfl, rfl, rfl⟩

end Sys2Proof.Machine
end

section
/-! The ports of R70: the event of the next pins, the answer of an accepted word (R78, R79), and the output pins that
show a waiting response. -/

namespace Sys2Proof.Machine

section
variable {s : State} {p : Pins} {rest : List Pins}

/-- Once the port event has passed, the later ones are still to come. -/
theorem nextInput_of_inputs (h : s.inputs = p :: rest) : nextInput s = { s with inputs := rest } := by
  simp [nextInput, h]

/-- A command presented while no response waits is accepted (R70). -/
theorem portEvent_of_cmdValid (h : s.inputs = p :: rest) (hrst : p.rst = false) (hrsp : s.rsp = none)
    (hvalid : p.cmdValid = true) : portEvent s = .accepted p.cmdWord := by
  simp [portEvent, pinsEvent, rspValid, cmdReady, h, hrst, hrsp, hvalid]

/-- A waiting response is taken when the host is ready for it; until then nothing happens (R35, R70). -/
theorem portEvent_of_waiting {r : Response} (h : s.inputs = p :: rest) (hrst : p.rst = false) (hrsp : s.rsp = some r) :
    portEvent s = if p.rspReady then .taken else .nothing := by
  simp [portEvent, pinsEvent, rspValid, cmdReady, h, hrst, hrsp]

/-- With no response waiting and no command presented nothing happens (R70). -/
theorem portEvent_of_not_cmdValid (h : s.inputs = p :: rest) (hrst : p.rst = false) (hrsp : s.rsp = none)
    (hvalid : p.cmdValid = false) : portEvent s = .nothing := by
  simp [portEvent, pinsEvent, rspValid, h, hrst, hrsp, hvalid]

end

/-- A step that accepts a word runs it. -/
theorem step_of_accepted {s : State} {w : CmdWord} (h : portEvent s = .accepted w) :
    step s = runWord w (nextInput s) := by simp only [step, h]

/-- Settles O5: the port event is the acceptance of the word, which runs as its command. -/
theorem stepRunsTheDecodedCommand : Obligations.StepRunsTheDecodedCommand := by
  intro s p rest i hin hrst hrsp hvalid hdecode
  rw [step_of_accepted (portEvent_of_cmdValid hin hrst hrsp hvalid), runWord_of_ok hdecode, nextInput_of_inputs hin]

/-- Settles O9: the port event is that the response is taken, or nothing, or the engine is idle. -/
theorem responseWaitsUntilTaken : Obligations.ResponseWaitsUntilTaken := by
  refine ⟨fun s p rest r hin hrst hrsp => ?_, fun s p rest hin hrst hrsp hvalid => ?_, fun s hin => ?_⟩
  · rw [step, portEvent_of_waiting hin hrst hrsp, nextInput_of_inputs hin]
    cases p.rspReady <;> rfl
  · rw [step, portEvent_of_not_cmdValid hin hrst hrsp hvalid, nextInput_of_inputs hin]
  · simp [step, portEvent, hin]

/-- `t` answers with FAULT as it leaves it, with `len` bytes of payload if that is 0 and none otherwise (R78, R79). -/
def Answers (len : Nat) (t : State) : Prop :=
  ∃ payload, t.rsp = some ⟨statusByte t.fault, payload⟩ ∧ payload.length = if t.fault = .none then len else 0

/-- A raised cause is in FAULT, so no payload is due (R186). -/
theorem answers_raise (len : Nat) {c : FaultCode} (hc : c ≠ .none) (s : State) : Answers len (raise c s) :=
  ⟨[], rfl, by simp [latch_ne_none hc]⟩

/-- A refusal answers with the standing fault and no payload (R184). -/
theorem answers_refuse (len : Nat) {s : State} (hf : s.fault ≠ .none) : Answers len (refuse s) :=
  ⟨[], rfl, by simp [hf]⟩

/-- With no fault, status 0 and a payload are the answer of that length (R78). -/
theorem answers_respond {s : State} (hf : s.fault = .none) (payload : List Byte) :
    Answers payload.length (respond 0 payload s) :=
  ⟨payload, by simp [hf], by simp [hf]⟩

/-- The payload length of a completed command (R78). -/
def payloadLength : Instr → DigestMode → Nat
  | .init _, _ => 0
  | .update _, _ => 0
  | .digest, .d512 => 64
  | .digest, .d256 => 32
  | .hexdigest, .d512 => 128
  | .hexdigest, .d256 => 64

/-- DIGEST computes as many bytes as its row of R78 says. -/
theorem length_digestBytes (s : State) : (digestBytes s).length = payloadLength .digest s.ds := by
  rw [digestBytes, length_digestOf]
  cases s.ds <;> rfl

/-- HEXDIGEST has two characters for each byte of DIGEST. -/
theorem length_hex_digestBytes (s : State) : (hex (digestBytes s)).length = payloadLength .hexdigest s.ds := by
  rw [length_hex, length_digestBytes]
  cases s.ds <;> rfl

/-- Every command answers, in its row of R78, and leaves what the host will drive. -/
theorem exec_answers (i : Instr) (s : State) :
    ∃ t, exec i s = .next t ∧ t.inputs = s.inputs ∧ Answers (payloadLength i s.ds) t := by
  obtain ⟨ds, m, rfl, -, he⟩ | ⟨ds, -, -, he⟩ | ⟨-, hf, he⟩ | ⟨v, -, -, -, he⟩ | ⟨v, rfl, hf, -, he⟩ |
    ⟨rfl, hf, he⟩ | ⟨rfl, hf, he⟩ := exec_cases i s
  · exact ⟨_, he, rfl, answers_respond rfl []⟩
  · exact ⟨_, he, rfl, answers_raise _ (by decide) s⟩
  · exact ⟨_, he, rfl, answers_refuse _ hf⟩
  · exact ⟨_, he, rfl, answers_raise _ (by decide) s⟩
  · exact ⟨_, he, by simp, answers_respond (by simpa using hf) []⟩
  · exact ⟨_, he, rfl, length_digestBytes s ▸ answers_respond (s := enterDone s) hf _⟩
  · exact ⟨_, he, rfl, length_hex_digestBytes s ▸ answers_respond (s := enterDone s) hf _⟩

/-- Every accepted word answers, a command or not, and leaves what the host will drive (R70, R182). -/
theorem runWord_answers (w : CmdWord) (s : State) :
    ∃ t len, runWord w s = .next t ∧ t.inputs = s.inputs ∧ Answers len t := by
  cases hw : decode w with
  | ok i =>
    obtain ⟨t, ht, hin, ha⟩ := exec_answers i s
    exact ⟨t, _, (runWord_of_ok hw s).trans ht, hin, ha⟩
  | error e => exact ⟨_, 0, runWord_of_error hw s, rfl, answers_raise 0 (by decide) s⟩

/-- The status of an answer is FAULT; if it is 0 the payload has its length, and otherwise there is none. -/
theorem Answers.exists_response {len : Nat} {t : State} (h : Answers len t) :
    ∃ r, t.rsp = some r ∧ r.status = statusByte t.fault ∧ (r.status = 0 → r.payload.length = len) ∧
      (r.status ≠ 0 → r.payload = []) := by
  obtain ⟨payload, hrsp, hlen⟩ := h
  refine ⟨_, hrsp, rfl, fun h0 => ?_, fun h0 => ?_⟩
  · rw [hlen, if_pos (statusByte_eq_zero.mp h0)]
  · rw [if_neg fun hf => h0 (statusByte_eq_zero.mpr hf)] at hlen
    exact List.eq_nil_of_length_eq_zero hlen

/-- No status is above 3 (R79). -/
theorem statusByte_toNat_le (f : FaultCode) : (statusByte f).toNat ≤ 3 := by cases f <;> decide

/-- Settles O12: an accepted word runs, and whatever it does, it answers with FAULT. -/
theorem everyAcceptedWordIsAnswered : Obligations.EveryAcceptedWordIsAnswered := by
  refine ⟨fun s w hw => ?_, rfl, rfl, rfl, rfl⟩
  obtain ⟨t, len, ht, hin, ha⟩ := runWord_answers w (nextInput s)
  obtain ⟨r, hrsp, hstatus, -, hnone⟩ := ha.exists_response
  exact ⟨t, r, (step_of_accepted hw).trans ht, hrsp, hin, hstatus, hstatus ▸ statusByte_toNat_le t.fault, hnone⟩

/-- Settles O20: every command answers in its row of the table. -/
theorem responsesHaveTheLengthsOfTheTable : Obligations.ResponsesHaveTheLengthsOfTheTable := by
  intro i s
  obtain ⟨t, ht, -, ha⟩ := exec_answers i s
  obtain ⟨r, hrsp, hstatus, hlen, hnone⟩ := ha.exists_response
  refine ⟨t, r, ht, hrsp, fun h0 => ?_, fun h0 => ⟨hnone h0, hstatus⟩⟩
  rw [hlen h0]
  rfl

/-- With no response waiting the pins say so, and nothing more (R70). -/
theorem shows_iff_of_none {s : State} {o : Outputs} (h : s.rsp = none) :
    shows s o = true ↔ o.cmdReady = true ∧ o.rspValid = false := by
  simp [shows, cmdReady, rspValid, h]

/-- With a response waiting the pins say so and show it (R70). -/
theorem shows_iff_of_some {s : State} {o : Outputs} {r : Response} (h : s.rsp = some r) :
    shows s o = true ↔ o.cmdReady = false ∧ o.rspValid = true ∧ showsResponse r o = true := by
  simp [shows, cmdReady, rspValid, h, and_assoc]

/-- The response pins show the status, the length and each byte of the payload (R70). -/
theorem showsResponse_iff {r : Response} {o : Outputs} :
    showsResponse r o = true ↔ o.rspStatus = r.status ∧ o.rspLen.toNat = r.payload.length ∧
      ∀ (i : Nat) (hi : i < r.payload.length), o.rspData.extractLsb' (8 * i) 8 = r.payload[i] := by
  have hbyte : (∀ i < r.payload.length, rspByte o i = r.payload.getD i 0) ↔
      ∀ (i : Nat) (hi : i < r.payload.length), o.rspData.extractLsb' (8 * i) 8 = r.payload[i] :=
    forall₂_congr fun i hi => by rw [rspByte, List.getD_eq_getElem _ _ hi]
  simp only [showsResponse, Bool.and_eq_true, decide_eq_true_eq, List.all_eq_true, List.mem_range, and_assoc, hbyte]

/-- Pins that show a response: the payload packed into `rsp_data`, zero above it. -/
def outputsOf (r : Response) : Outputs where
  cmdReady  := false
  rspValid  := true
  rspStatus := r.status
  rspLen    := BitVec.ofNat 8 r.payload.length
  rspData   := BitVec.ofNat 1024 (packWords (r.payload ++ List.replicate (128 - r.payload.length) 0))

/-- A payload of at most 128 bytes fits the response pins. -/
theorem showsResponse_outputsOf {r : Response} (h : r.payload.length ≤ 128) : showsResponse r (outputsOf r) = true := by
  refine showsResponse_iff.mpr ⟨rfl, ?_, fun i hi => ?_⟩
  · exact Nat.mod_eq_of_lt (by omega)
  · rw [outputsOf, extract_packWords _ (by simp; omega) i (by simp; omega), List.getElem_append_left hi]

/-- No response of R78 is longer than 128 bytes. -/
theorem payload_length_le_of_wf {r : Response} (h : r.wf = true) : r.payload.length ≤ 128 := by
  simp only [Response.wf, Bool.or_eq_true, Bool.and_eq_true, List.contains_iff_mem, List.isEmpty_iff] at h
  obtain ⟨-, hlen⟩ | ⟨-, hnil⟩ := h
  · have hrows : ∀ n ∈ [0, 32, 64, 128], n ≤ 128 := by decide
    exact hrows _ hlen
  · simp [hnil]

/-- Settles O10: a response that fits the pins is shown by its payload packed into them. -/
theorem outputPinsShowTheResponse : Obligations.OutputPinsShowTheResponse := by
  refine ⟨fun s o h hrsp => (shows_iff_of_none hrsp).mp h, fun s o r h hrsp => ?_, fun s hwf => ?_⟩
  · obtain ⟨hready, hvalid, hshown⟩ := (shows_iff_of_some hrsp).mp h
    exact ⟨hready, hvalid, showsResponse_iff.mp hshown⟩
  · cases hrsp : s.rsp with
    | none => exact ⟨⟨true, false, 0, 0, 0⟩, (shows_iff_of_none hrsp).mpr ⟨rfl, rfl⟩⟩
    | some r =>
      have hfits := showsResponse_outputsOf (payload_length_le_of_wf (hwf r hrsp))
      exact ⟨outputsOf r, (shows_iff_of_some hrsp).mpr ⟨rfl, rfl, hfits⟩⟩

end Sys2Proof.Machine
end

section
/-! The assembled blocks (R81 to R83) and the hexadecimal payload (R80), byte by byte. -/

namespace Sys2Proof.Machine

/-- Byte `i` of KeyBlock (R81). -/
@[simp] theorem byte_keyBlock (n : Word64) (h : Block) (i : Fin 64) :
    byte (keyBlock n h) i = if i.val < 8 then byte h i ^^^ le64Byte n i.val else byte h i := by
  rw [keyBlock, byte_ofBytes]

/-- Settles O34: the xor with a byte of the step value 0 changes nothing. -/
theorem keyBlockBytes : Obligations.KeyBlockBytes := by
  refine fun n h => ⟨byte_keyBlock n h, block_ext fun i => ?_⟩
  simp [le64Byte]

/-- The block of a list does not change when zeros are appended to the list. -/
theorem ofList_append_zeros (bs : List Byte) (k : Nat) : ofList (bs ++ List.replicate k 0) = ofList bs := by
  refine block_ext fun i => ?_
  rw [byte_ofList, byte_ofList]
  by_cases hi : i.val < bs.length
  · rw [List.getD_append _ _ _ _ hi]
  · have hle := Nat.le_of_not_lt hi
    rw [List.getD_append_right _ _ _ _ hle, List.getD_eq_default _ _ hle, List.getD_eq_getElem?_getD,
      List.getElem?_getD_replicate_default_eq]

/-- Settles O35: byte `i` lies in the tail, is the byte after it, or lies in the zeros. -/
theorem paddedBlockBytes : Obligations.PaddedBlockBytes := by
  intro t _ i
  rw [padBlock, ofList_append_zeros, byte_ofList]
  obtain hlt | heq | hgt := lt_trichotomy i.val t.length
  · rw [dif_pos hlt, List.getD_append _ _ _ _ hlt, List.getD_eq_getElem _ _ hlt]
  · rw [dif_neg heq.not_lt, if_pos heq, List.getD_append_right _ _ _ _ heq.ge, heq, Nat.sub_self]
    rfl
  · rw [dif_neg hgt.not_gt, if_neg hgt.ne', List.getD_eq_default _ _ (by simpa using hgt)]

/-- Byte `i` of LenBlock (R83). -/
@[simp] theorem byte_lenBlock (n : Word64) (i : Fin 64) :
    byte (lenBlock n) i = if i.val < 8 then le64Byte n i.val else 0 := by
  rw [lenBlock, ofList_append_zeros, byte_ofList]
  split
  · next h8 => simp [le64, h8]
  · next h8 => exact List.getD_eq_default _ _ (by simpa using h8)

/-- LenBlock is its number written in 512 bits (R83). -/
theorem lenBlock_eq_setWidth (n : Word64) : lenBlock n = n.setWidth 512 := by
  refine block_ext fun i => ?_
  rw [byte_lenBlock]
  ext j hj
  by_cases h8 : i.val < 8
  · simp [h8, byte, le64Byte, show 8 * i.val + j < 512 by omega]
  · simp [h8, byte, BitVec.getLsbD_of_ge n (8 * i.val + j) (by omega)]

/-- Settles O36: LenBlock is its number, and a wider register holds the same number. -/
theorem lengthBlockIsItsNumber : Obligations.LengthBlockIsItsNumber := by
  refine fun n => ⟨byte_lenBlock n, ?_⟩
  rw [lenBlock_eq_setWidth, int512, BitVec.toNat_setWidth_of_le (by decide)]

/-- The characters of a byte and of the bytes after it (R80). -/
theorem hex_cons (b : Byte) (d : List Byte) :
    hex (b :: d) = hexChar (b.extractLsb' 4 4) :: hexChar (b.extractLsb' 0 4) :: hex d := rfl

/-- The two characters of byte `i` (R80). -/
theorem getElem?_hex {d : List Byte} {i : Nat} (hi : i < d.length) :
    (hex d)[2 * i]? = some (hexChar (d[i].extractLsb' 4 4)) ∧
      (hex d)[2 * i + 1]? = some (hexChar (d[i].extractLsb' 0 4)) := by
  induction d generalizing i with
  | nil => simp at hi
  | cons b d ih =>
    cases i with
    | zero => simp [hex_cons]
    | succ i => simpa [hex_cons, Nat.mul_succ] using ih (by simpa using hi)

/-- The sixteen lower-case ASCII digits (R80). -/
def hexDigits : List Byte :=
  [0x30, 0x31, 0x32, 0x33, 0x34, 0x35, 0x36, 0x37, 0x38, 0x39, 0x61, 0x62, 0x63, 0x64, 0x65, 0x66]

/-- The character of a nibble is the digit of its number (R80). -/
theorem hexDigits_getElem? (x : BitVec 4) : hexDigits[x.toNat]? = some (hexChar x) := by
  decide +revert

/-- Settles O38: character by character, the digits of the two nibbles of each byte. -/
theorem hexSpellsNibbles : Obligations.HexSpellsNibbles := by
  refine fun d chars => ⟨length_hex d, ?_⟩
  rintro rfl i hi
  have hhigh : (d[i].extractLsb' 4 4).toNat = d[i].toNat / 16 := by
    rw [BitVec.extractLsb'_toNat, Nat.shiftRight_eq_div_pow]
    omega
  have hlow : (d[i].extractLsb' 0 4).toNat = d[i].toNat % 16 := by simp
  obtain ⟨hfirst, hsecond⟩ := getElem?_hex hi
  rw [hfirst, hsecond, ← hexDigits_getElem?, ← hexDigits_getElem?, hhigh, hlow]
  exact ⟨rfl, rfl⟩

end Sys2Proof.Machine
end

section
/-! The constant tables: PI is a permutation without fixed point (R100), TAU is the transposition of an 8 by 8 matrix
(R101), and the bytes of the initial values (R104). -/

namespace Sys2Proof.Machine

/-- Where a byte stands in the grid of PI. -/
def positionPI (y : Fin 256) : Fin 256 := Fin.ofNat 256 (rowsPI.flatten.findIdx (·.toNat == y.val))

/-- The grid of PI holds every byte, at the position found for it (R100). -/
theorem romPI_positionPI (y : Fin 256) : (romPI (positionPI y)).toFin = y := by
  decide +kernel +revert

/-- PI is a permutation of 0..255 (R100): a map of a finite set that takes every value is a bijection. -/
theorem romPI_bijective : Function.Bijective fun x => (romPI x).toFin :=
  Function.Surjective.bijective_of_finite fun y => ⟨positionPI y, romPI_positionPI y⟩

/-- No entry of PI is its own index (R100). -/
theorem romPI_ne_self (x : Fin 256) : (romPI x).toFin ≠ x := by
  decide +kernel +revert

/-- The closed form of TAU (R101). -/
theorem val_romTAU (i : Fin 64) : (romTAU i).val = 8 * (i.val % 8) + i.val / 8 := by
  decide +revert

/-- Transposing twice gives every index back (R101). -/
@[simp] theorem romTAU_romTAU (i : Fin 64) : romTAU (romTAU i) = i := by
  ext
  rw [val_romTAU, val_romTAU]
  omega

/-- Settles O25: the values of PI are found in its grid, and the involution of TAU follows from its closed form. -/
theorem tablesPIAndTAU : Obligations.TablesPIAndTAU :=
  ⟨romPI_bijective, romPI_ne_self, val_romTAU, romTAU_romTAU⟩

/-- Settles O26: the bytes of a repeated byte and of the zero block. -/
theorem initialChainingValues : Obligations.InitialChainingValues :=
  fun i => ⟨byte_rep 0x01 i, byte_zero i⟩

end Sys2Proof.Machine
end

section
/-! The byte layers S and P (R111, R112, C7): S looks each byte up in PI, P transposes the 8 by 8 matrix of bytes; their
properties are those of the tables. -/

namespace Sys2Proof.Machine

@[simp] theorem byte_layerS (a : Block) (i : Fin 64) : byte (layerS a) i = romPI (byte a i).toFin := by
  simp [layerS]

@[simp] theorem byte_layerP (a : Block) (i : Fin 64) : byte (layerP a) i = byte a (romTAU i) := by
  simp [layerP]

/-- The diagonal of the matrix that TAU transposes: positions divisible by 9 (R112). -/
theorem romTAU_eq_self {i : Fin 64} (h : i.val % 9 = 0) : romTAU i = i := by
  ext
  rw [val_romTAU]
  omega

theorem layerP_involutive : Function.Involutive layerP := fun a => block_ext fun i => by simp

/-- S applies one table at every position, so it does not matter where the bytes stand (R112). -/
theorem layerS_layerP (a : Block) : layerS (layerP a) = layerP (layerS a) := block_ext fun i => by simp

/-- The lookup of a byte in PI loses nothing, so neither does the lookup of every byte of a block. -/
theorem layerS_injective : Function.Injective layerS := fun a b hab => block_ext fun i => by
  have hi : romPI (byte a i).toFin = romPI (byte b i).toFin := by simpa using congrArg (byte · i) hab
  exact BitVec.toFin_inj.mp (romPI_bijective.injective (congrArg BitVec.toFin hi))

/-- Settles O27: the entry of PI is never its own index. -/
theorem substitutionActsOnEachByte : Obligations.SubstitutionActsOnEachByte := by
  intro a i
  refine ⟨byte_layerS a i, fun hfix => romPI_ne_self (byte a i).toFin ?_⟩
  rw [← byte_layerS, hfix]

/-- Settles O28: the scatter, the involution and the diagonal are those of TAU. -/
theorem permutationScattersAndIsAnInvolution : Obligations.PermutationScattersAndIsAnInvolution := fun a =>
  ⟨fun i => by rw [byte_layerP, romTAU_romTAU], layerP_involutive a,
    fun i hi => by rw [byte_layerP, romTAU_eq_self hi], layerS_layerP a⟩

end Sys2Proof.Machine
end

section
/-! The word map l (R113) xors one mask for each set bit of its operand. A map of this form is linear for any masks, a
linear map acts on it through its masks, and the masks that are the one-bit words give the identity: so l is onto as
soon as every one-bit word is a value of l, and l of the words found for them is evaluated. -/

namespace Sys2Proof.Machine

/-- The masks of the set bits of a word, xored; mask `m j` belongs to scan position `j`, which is bit `63 - j` (R113). -/
def xorMasks (m : Fin 64 → Word64) (w : Word64) : Word64 :=
  Finset.univ.fold (· ^^^ ·) 0#64 fun j => if w.getLsbD (63 - j.val) then m j else 0#64

/-- The word with only scan position `j` set. -/
def unitWord (j : Fin 64) : Word64 := BitVec.twoPow 64 (63 - j.val)

theorem getLsbD_unitWord (j k : Fin 64) : (unitWord j).getLsbD (63 - k.val) = decide (k = j) := by
  rw [unitWord, BitVec.getLsbD_twoPow, Bool.eq_iff_iff]
  simp only [Bool.and_eq_true, decide_eq_true_eq]
  omega

/-- The scan of R113, whose order does not matter, xors the masks of R102. -/
theorem wordL_eq_xorMasks : wordL = xorMasks romA := by
  have hstep (w : Word64) : scanStep w = fun acc j => acc ^^^ if w.getLsbD (63 - j.val) then romA j else 0#64 := by
    funext acc j
    simp only [scanStep]
    split <;> simp
  funext w
  rw [wordL, hstep, ← List.foldl_map (f := fun j => if w.getLsbD (63 - j.val) then romA j else 0#64) (g := (· ^^^ ·))]
  exact (Multiset.coe_fold_l _ _ _).symm

/-- An xor of masks in which only that of scan position `j` can matter. -/
theorem xorMasks_eq_single {m : Fin 64 → Word64} {w : Word64} {j : Fin 64}
    (h : ∀ k, k ≠ j → w.getLsbD (63 - k.val) = false ∨ m k = 0#64) :
    xorMasks m w = if w.getLsbD (63 - j.val) then m j else 0#64 := by
  have hrest : (Finset.univ.erase j).fold (· ^^^ ·) 0#64 (fun k => if w.getLsbD (63 - k.val) then m k else 0#64) =
      0#64 := by
    rw [Finset.fold_congr (g := fun _ => 0#64) fun k hk => ?_, Finset.fold_const _ (by simp)]
    · simp
    · obtain hw | hm := h k (Finset.ne_of_mem_erase hk)
      · simp [hw]
      · simp [hm]
  rw [xorMasks, ← Finset.insert_erase (Finset.mem_univ j), Finset.fold_insert (Finset.notMem_erase j _), hrest]
  exact BitVec.xor_zero

theorem xorMasks_xor (m : Fin 64 → Word64) (u v : Word64) :
    xorMasks m (u ^^^ v) = xorMasks m u ^^^ xorMasks m v := by
  rw [xorMasks, xorMasks, xorMasks, ← Finset.fold_op_distrib (β := Word64) (op := (· ^^^ ·)), BitVec.xor_zero]
  congr 1
  funext j
  rw [BitVec.getLsbD_xor]
  cases u.getLsbD (63 - j.val) <;> cases v.getLsbD (63 - j.val) <;> simp

theorem xorMasks_unitWord (m : Fin 64 → Word64) (j : Fin 64) : xorMasks m (unitWord j) = m j := by
  rw [xorMasks_eq_single (j := j) fun k hk => .inl (by simp [getLsbD_unitWord, hk])]
  simp [getLsbD_unitWord]

/-- A linear map sends an xor of masks to the xor of the masks' images. -/
theorem map_xorMasks {f : Word64 → Word64} (hf : ∀ u v, f (u ^^^ v) = f u ^^^ f v) (m : Fin 64 → Word64)
    (w : Word64) : f (xorMasks m w) = xorMasks (f ∘ m) w := by
  have hzero : f 0#64 = 0#64 := by simpa using hf 0 0
  rw [xorMasks, ← Finset.fold_hom hf, hzero]
  congr 1
  funext j
  simp only [apply_ite f, hzero, Function.comp_apply]

/-- Two one-bit words have a common bit only when they are the same. -/
theorem unitWord_and_unitWord {j k : Fin 64} (h : k ≠ j) : unitWord k &&& unitWord j = 0#64 := by
  have hbit : (unitWord k).getLsbD (63 - j.val) = false := by simp [getLsbD_unitWord, h.symm]
  have hand := BitVec.and_twoPow (unitWord k) (63 - j.val)
  rwa [hbit] at hand

/-- A word is the xor of the one-bit words of its set bits. -/
theorem xorMasks_unitWord_eq_self (w : Word64) : xorMasks unitWord w = w := by
  apply BitVec.eq_of_getLsbD_eq
  intro i hi
  obtain ⟨j, rfl⟩ : ∃ j : Fin 64, i = 63 - j.val := ⟨⟨63 - i, by omega⟩, (Nat.sub_sub_self (by omega)).symm⟩
  have hand (u v : Word64) : (u ^^^ v) &&& unitWord j = (u &&& unitWord j) ^^^ (v &&& unitWord j) := by
    ext i
    simp [Bool.and_xor_distrib_right]
  have hmask : xorMasks unitWord w &&& unitWord j =
      if w.getLsbD (63 - j.val) then unitWord j &&& unitWord j else 0#64 := calc
    _ = xorMasks (fun k => unitWord k &&& unitWord j) w :=
      map_xorMasks (f := (· &&& unitWord j)) hand unitWord w
    _ = _ := xorMasks_eq_single fun k hk => .inr (unitWord_and_unitWord hk)
  have hbit := congrArg (BitVec.getLsbD · (63 - j.val)) hmask
  cases hw : w.getLsbD (63 - j.val) <;> simpa [hw, getLsbD_unitWord] using hbit

theorem wordL_xor (u v : Word64) : wordL (u ^^^ v) = wordL u ^^^ wordL v := by
  simp only [wordL_eq_xorMasks, xorMasks_xor]

theorem wordL_unitWord (j : Fin 64) : wordL (unitWord j) = romA j := by
  rw [wordL_eq_xorMasks, xorMasks_unitWord]

/-- Settles O29: linearity and the images of the one-bit words hold for any masks; that l is no involution is seen at
the word of scan position 0. -/
theorem wordMapXorsTheMasks : Obligations.WordMapXorsTheMasks :=
  ⟨wordL_xor, wordL_unitWord, by simpa using wordL_xor 0 0, by decide +kernel⟩

/-- Each byte of a word halved, in a field of 256 elements: 1 halved is 0x8e. In each group of eight masks of R102 every
mask is the one before it, halved, and so are the preimages of the one-bit words. -/
def halveBytes (w : Word64) : Word64 :=
  ((w >>> 1) &&& 0x7f7f7f7f7f7f7f7f) ^^^ (w &&& 0x0101010101010101) * 0x8e

/-- The words that l takes to the top bits of the eight bytes, the most significant byte first. -/
def preimagesOfTopBits : List Word64 := [
  0x62ab88cd0972e917, 0x37ac80ec39310f5c, 0x7ba7f6d2966a717c, 0x8f75c66271c4c510,
  0xa27784688a48d4ef, 0x38d6992f43439caa, 0x7388fc7df56416b6, 0x321902ad3c69a5e9]

/-- The word that l takes to the one-bit word of scan position `j`. -/
def preimageOfUnit (j : Fin 64) : Word64 := halveBytes^[j.val % 8] (preimagesOfTopBits.getD (j.val / 8) 0)

/-- The words found are preimages: l is evaluated at each of the 64. -/
theorem wordL_preimageOfUnit (j : Fin 64) : wordL (preimageOfUnit j) = unitWord j := by
  decide +kernel +revert

/-- l is onto: the one-bit words are values of l, and l is linear. So the masks of R102 are independent (R113). -/
theorem wordL_surjective : Function.Surjective wordL := fun w => by
  refine ⟨xorMasks preimageOfUnit w, ?_⟩
  have hunit : wordL ∘ preimageOfUnit = unitWord := funext wordL_preimageOfUnit
  rw [map_xorMasks wordL_xor, hunit, xorMasks_unitWord_eq_self]

theorem wordL_bijective : Function.Bijective wordL := wordL_surjective.bijective_of_finite

end Sys2Proof.Machine
end

section
/-! The layer L (R114) word by word, and the bijections of R116. A block is its bytes and is its words, so a layer that
acts on each of them by itself loses nothing when its table or word map loses nothing. -/

namespace Sys2Proof.Machine

@[simp] theorem word64_layerL (a : Block) (k : Fin 8) : word64 (layerL a) k = wordL (word64 a k) := by
  simp [layerL]

theorem layerL_injective : Function.Injective layerL := fun a b hab => block_ext_words fun k =>
  wordL_bijective.injective (by simpa using congrArg (word64 · k) hab)

theorem lps_eq_comp : lps = layerL ∘ layerP ∘ layerS := by
  funext a
  rw [lps]
  rfl

/-- Settles O30: l is linear and acts on each word by itself. -/
theorem linearLayerActsOnEachWord : Obligations.LinearLayerActsOnEachWord :=
  ⟨word64_layerL, fun a b => block_ext_words fun k => by simp [layerX, wordL_xor]⟩

/-- Settles O31: S and L are injective on a finite set, P is an involution, l is onto, and LPS is their composition. -/
theorem layersAreBijections : Obligations.LayersAreBijections := by
  have hS : Function.Bijective layerS := Finite.injective_iff_bijective.mp layerS_injective
  have hP : Function.Bijective layerP := layerP_involutive.bijective
  have hL : Function.Bijective layerL := Finite.injective_iff_bijective.mp layerL_injective
  exact ⟨hS, hP, wordL_bijective, hL, lps_eq_comp ▸ hL.comp (hP.comp hS)⟩

end Sys2Proof.Machine
end

section
/-! The cipher E (R130): its bijections (R132) and its unrolled form (R131). -/

namespace Sys2Proof.Machine

/-- E with the rounds of a list in place of its twelve. -/
def cipherOver (rounds : List (Fin 12)) (K m : Block) : Block :=
  let kx := rounds.foldl roundE (K, m)
  layerX kx.1 kx.2

theorem cipherE_eq_cipherOver : cipherE = cipherOver (List.finRange 12) := by
  funext K m
  rw [cipherE]
  rfl

/-- With no round left, the whitening alone is applied. -/
theorem cipherOver_nil (K : Block) : cipherOver [] K = layerX K := rfl

/-- The first round maps the data by `LPS(X(K, ·))`; the key of the rounds after it does not depend on the data. -/
theorem cipherOver_cons (i : Fin 12) (rounds : List (Fin 12)) (K : Block) :
    cipherOver (i :: rounds) K = cipherOver rounds (lps (layerX K (romC i))) ∘ lps ∘ layerX K := rfl

theorem layerX_bijective (K : Block) : Function.Bijective (layerX K) :=
  (xor_right_involutive K).bijective

theorem lps_bijective : Function.Bijective lps := by
  obtain ⟨-, -, -, -, hlps⟩ := layersAreBijections
  exact hlps

/-- One bijection per round, and the whitening: a composition of bijections, whatever the round keys are. -/
theorem cipherOver_bijective (rounds : List (Fin 12)) (K : Block) : Function.Bijective (cipherOver rounds K) := by
  induction rounds generalizing K with
  | nil =>
    rw [cipherOver_nil]
    exact layerX_bijective K
  | cons i rounds ih =>
    rw [cipherOver_cons]
    exact (ih _).comp (lps_bijective.comp (layerX_bijective K))

/-- Settles O32: E is its own twelve rounds. -/
theorem cipherIsABijection : Obligations.CipherIsABijection := fun K =>
  cipherE_eq_cipherOver ▸ cipherOver_bijective (List.finRange 12) K

/-- A fold over `0, …, n - 1` ends in the last term of a sequence that meets its recurrence. -/
theorem foldl_finRange_eq_of_recurrence {α : Type} {n : Nat} {f : α → Fin n → α} {s : Nat → α}
    (h : ∀ i : Fin n, s (i.val + 1) = f (s i.val) i) : (List.finRange n).foldl f (s 0) = s n := by
  induction n with
  | zero => rfl
  | succ n ih =>
    have hinit : (List.finRange n).foldl (fun a i => f a i.castSucc) (s 0) = s n := ih fun i => h i.castSucc
    rw [List.finRange_succ_last, List.foldl_append, List.foldl_map, hinit]
    exact (h (Fin.last n)).symm

/-- Settles O33: the recurrences of R131 say that `(k, x)` goes through the rounds of R130, so the loop ends in its
twelfth pair. -/
theorem cipherUnrolled : Obligations.CipherUnrolled := by
  intro k x h
  have hround (i : Fin 12) : (k (i.val + 1), x (i.val + 1)) = roundE (k i.val, x i.val) i := by
    obtain ⟨hkey, hdata⟩ := h i
    rw [hkey, hdata, roundE]
  have hloop := foldl_finRange_eq_of_recurrence (s := fun n => (k n, x n)) hround
  rw [cipherE, hloop]

end Sys2Proof.Machine
end

section
/-! The adder (R144) and the compression function g (R140). The adder's loop is schoolbook addition in base 256: each
byte sum leaves its residue in place and hands its quotient on as the carry. -/

namespace Sys2Proof.Machine

/-- The 9-bit sum of R144 is wide enough for two bytes and a carry. -/
@[simp] theorem toNat_byteSum (a b : Byte) (c : Bool) : (byteSum a b c).toNat = a.toNat + b.toNat + c.toNat := by
  have hc := Bool.toNat_le c
  simp only [byteSum, BitVec.toNat_add, BitVec.toNat_setWidth, BitVec.toNat_ofBool]
  omega

/-- The carry of R144 is the quotient of the sum by 256. -/
theorem toNat_carry_byteSum (a b : Byte) (c : Bool) :
    ((byteSum a b c).getLsbD 8).toNat = (a.toNat + b.toNat + c.toNat) / 2 ^ 8 := by
  have hc := Bool.toNat_le c
  rw [BitVec.getLsbD, Nat.toNat_testBit, toNat_byteSum]
  omega

@[simp] theorem length_addBytes (as bs : List Byte) (c : Bool) :
    (addBytes as bs c).length = min as.length bs.length := by
  induction as generalizing bs c with
  | nil => simp [addBytes]
  | cons a as ih => cases bs <;> simp [addBytes, ih]

/-- The loop of R144 adds the numbers of two byte sequences of one length and the carry in, the carry out dropped. -/
theorem packWords_addBytes {as bs : List Byte} (h : as.length = bs.length) (c : Bool) :
    packWords (addBytes as bs c) = (packWords as + packWords bs + c.toNat) % 2 ^ (8 * as.length) := by
  induction as generalizing bs c with
  | nil => simp [addBytes, packWords, Nat.mod_one]
  | cons a as ih =>
    obtain _ | ⟨b, bs⟩ := bs
    · simp at h
    have hsum : packWords (a :: as) + packWords (b :: bs) + c.toNat =
        (a.toNat + b.toNat + c.toNat) + 2 ^ 8 * (packWords as + packWords bs) := by
      simp only [packWords]
      ring
    have hpow : 2 ^ (8 * (a :: as).length) = 2 ^ 8 * 2 ^ (8 * as.length) := by
      rw [List.length_cons, Nat.mul_succ, Nat.pow_add, Nat.mul_comm]
    rw [addBytes, packWords, ih (by simpa using h), toNat_carry_byteSum, BitVec.toNat_setWidth, toNat_byteSum, hsum,
      hpow, Nat.mod_mul, Nat.add_mul_mod_self_left, Nat.add_mul_div_left _ _ (by decide), Nat.add_comm (_ / _)]

/-- The block of 64 bytes is the block of the number whose digits they are (R10). -/
theorem ofList_eq_blk512 {bs : List Byte} (h : bs.length = 64) : ofList bs = blk512 (packWords bs) :=
  block_ext fun i => by
    have hi : i.val < bs.length := by omega
    rw [byte_ofList, byte, blk512, extract_packWords bs (by rw [h]) i.val hi, List.getD_eq_getElem _ _ hi]

/-- The integer of a block is the number whose digits are its bytes (R10). -/
theorem packWords_bytes (b : Block) : packWords (bytes b) = int512 b := by
  have hlt := packWords_lt (bytes b)
  simp only [length_bytes, Nat.reduceMul] at hlt
  calc packWords (bytes b) = int512 (blk512 (packWords (bytes b))) := by
        simp only [int512, blk512, BitVec.toNat_ofNat, Nat.mod_eq_of_lt hlt]
    _ = int512 b := by rw [← ofList_eq_blk512 (length_bytes b), ofList_bytes]

/-- Settles O37: the loop adds the numbers of the bytes modulo 2^512, which is where `blk512` wraps. -/
theorem adderAddsIntegers : Obligations.AdderAddsIntegers := by
  intro a b
  have hlen : (addBytes (bytes a) (bytes b) false).length = 64 := by simp
  rw [add512, ofList_eq_blk512 hlen, packWords_addBytes (by simp), packWords_bytes, packWords_bytes, length_bytes]
  apply BitVec.eq_of_toNat_eq
  simp only [blk512, BitVec.toNat_ofNat, Bool.toNat_false, Nat.add_zero, Nat.reduceMul, Nat.mod_mod]

theorem keyBlock_zero (h : Block) : keyBlock 0 h = h := by
  obtain ⟨-, hzero⟩ := keyBlockBytes 0 h
  exact hzero

/-- Settles O52: g is its definition, step value 0 leaves the key block `h`, and X is the exclusive-or of each byte. -/
theorem compressionFeedsForwardBothBlocks : Obligations.CompressionFeedsForwardBothBlocks := by
  have hg (n : Word64) (h m : Block) :
      compressG n h m = layerX (layerX (cipherE (lps (keyBlock n h)) m) h) m := by rw [compressG]
  refine ⟨hg, fun h m => ?_, congrFun lps_eq_comp, byte_xor⟩
  rw [hg, keyBlock_zero]

end Sys2Proof.Machine
end

section
/-! The commands one by one (R151 to R156), what a second digest request finds (R159), and PHASE after a step (R157). -/

namespace Sys2Proof.Machine

/-- A command's word is its opcode above its operand (R71 to R75). -/
theorem cmdWord_zero_eq_add (op : BitVec 8) (imm : BitVec 16) :
    cmdWord op 0 imm = op.setWidth 32 <<< 24 + imm.setWidth 32 := by
  have hdisjoint : op.setWidth 32 <<< 24 &&& imm.setWidth 32 = 0#32 := by
    ext i hi
    by_cases h : i < 24
    · simp [h]
    · simp [BitVec.getLsbD_of_ge imm i (by omega)]
  rw [BitVec.add_eq_or_of_and_eq_zero _ _ hdisjoint]
  simp [cmdWord]

/-- What taking a fault writes and answers (R186). -/
theorem raise_eq (c : FaultCode) (s : State) :
    raise c s = { s with
      fault := if s.fault = .none then c else s.fault
      rsp := some ⟨if s.fault = .none then statusByte c else statusByte s.fault, []⟩ } := by
  rw [← apply_ite]
  rfl

/-- The condition of LengthOverflow, register by register (R160, R183). -/
theorem lengthAtLimit_eq_true_iff {s : State} :
    lengthAtLimit s = true ↔ s.buflen = 63 ∧ s.n = BitVec.ofNat 512 (2 ^ 64 - 512) := by
  rw [lengthAtLimit, Bool.and_eq_true, decide_eq_true_iff, decide_eq_true_iff, Config.lastCount]

/-- Below the length limit LengthOverflow is not raised. -/
theorem lengthAtLimit_eq_false {s : State} (h : ¬ (s.buflen = 63 ∧ s.n = BitVec.ofNat 512 (2 ^ 64 - 512))) :
    lengthAtLimit s = false := Bool.eq_false_iff.mpr (mt lengthAtLimit_eq_true_iff.mp h)

/-- The block that the 64th byte completes is `BUF[0..62]` and that byte (R152). -/
theorem byte_bufBlock_putCell (v : Byte) {s : State} (h : s.buflen = 63) (i : Fin 64) :
    byte (bufBlock (putCell v s)) i = if i = 63 then v else s.buf[i] := by
  simp only [bufBlock, byte_ofBytes, putCell_buf, h]
  by_cases hi : i = 63
  · simp [hi]
  · have hne : 63 ≠ i.val := fun h63 => hi (Fin.ext h63.symm)
    simp [hi, Vector.getElem_set_ne _ _ hne]

/-- INIT of a mode's size starts a message of that mode (R151). -/
theorem exec_init_size (m : DigestMode) (s : State) :
    exec (.init (BitVec.ofNat 16 m.size)) s = .next (respond 0 [] (construct m s)) :=
  execInit_of_mode (modeOfSize_eq_some.mpr rfl) s

/-- Settles O14: the two sizes start a message of their mode, and no other size names a mode. -/
theorem initStartsAMessageOrFaults : Obligations.InitStartsAMessageOrFaults := by
  refine ⟨fun ds => cmdWord_zero_eq_add 0x01 ds, fun s => ⟨_, _, exec_init_size .d256 s⟩,
    fun s => ⟨_, _, exec_init_size .d512 s⟩, fun s ds h256 h512 => ?_⟩
  exact (execInit_of_none (modeOfSize_eq_none.mpr ⟨h256, h512⟩) s).trans (congrArg _ (raise_eq _ s))

/-- Settles O15: the branches of UPDATE, and of appending a byte when it is not refused. -/
theorem updateAppendsItsByte : Obligations.UpdateAppendsItsByte := by
  refine ⟨fun v => ?_, fun s v hf h63 => ?_, fun s v b hf h63 hn hb => ?_, fun s v hf h63 hn => ?_,
    fun s v hf => execUpdate_of_faulted v hf⟩
  · have hzext : v.setWidth 32 = (v.setWidth 16).setWidth 32 := by simp
    rw [hzext]
    exact cmdWord_zero_eq_add 0x02 (v.setWidth 16)
  · have hl : lengthAtLimit s = false := lengthAtLimit_eq_false fun h => h63 h.1
    refine (execUpdate_of_ok v hf hl).trans ?_
    rw [appendByte_of_ne v s h63]
    rfl
  · have hl : lengthAtLimit s = false := lengthAtLimit_eq_false fun h => hn h.2
    have hblock : b = bufBlock (putCell v s) := block_ext fun i => by rw [hb, byte_bufBlock_putCell v h63]
    have hcount : s.n + 512 = addBits s.n 512 := by rw [addBits]; rfl
    have hexec := execUpdate_of_ok v hf hl
    rw [appendByte_of_eq v s h63, ← hblock] at hexec
    rw [hcount]
    exact ⟨_, _, hexec⟩
  · refine (execUpdate_of_limit v hf (lengthAtLimit_eq_true_iff.mpr ⟨h63, hn⟩)).trans ?_
    rw [raise_eq, if_pos hf, if_pos hf]
    rfl

/-- Settles O19: both commands compute the digest of the same state and complete in the same way. -/
theorem hexdigestSpellsTheDigest : Obligations.HexdigestSpellsTheDigest :=
  ⟨rfl, fun _ hf => execHexdigest_of_faulted hf,
    fun s hf => ⟨digestBytes s, execDigest_of_ok hf, execHexdigest_of_ok hf⟩⟩

/-- DIGEST after a completed digest request computes what it computed before: the request wrote PHASE and the response
port only (R154, R159). -/
theorem execDigest_after_digest (payload : List Byte) {s : State} (hf : s.fault = .none) :
    execDigest (respond 0 payload (enterDone s)) = .next (respond 0 (digestBytes s) (enterDone s)) :=
  execDigest_of_ok (s := respond 0 payload (enterDone s)) hf

/-- HEXDIGEST after a completed digest request, in the same way (R156, R159). -/
theorem execHexdigest_after_digest (payload : List Byte) {s : State} (hf : s.fault = .none) :
    execHexdigest (respond 0 payload (enterDone s)) = .next (respond 0 (hex (digestBytes s)) (enterDone s)) :=
  execHexdigest_of_ok (s := respond 0 payload (enterDone s)) hf

/-- Settles O21: the second request of either kind answers as the first would have. -/
theorem digestTwiceIsTheSame : Obligations.DigestTwiceIsTheSame := fun _ hf =>
  ⟨_, _, execDigest_of_ok hf, execDigest_after_digest _ hf, execHexdigest_of_ok hf, execHexdigest_after_digest _ hf,
    execHexdigest_after_digest _ hf, execDigest_after_digest _ hf⟩

/-- Settles O42: what the digest commands compute is the reference function of the message. -/
theorem digestIsStreebogOfTheMessage : Obligations.DigestIsStreebogOfTheMessage := fun s hi hf =>
  ⟨digestBytes s, hi.streebog_eq, execDigest_of_ok hf, execHexdigest_of_ok hf⟩

/-- A started message is empty, whatever the state before (R151). -/
theorem inv_init (m : DigestMode) (s : State) : (respond 0 [] (construct m s)).Inv :=
  inv_of_empty rfl rfl rfl rfl rfl rfl (by rintro r ⟨⟩; decide)

/-- Settles O43: INIT leaves the invariant for the empty message, and the rest is a run of UPDATEs and a DIGEST. -/
theorem hashFromAnyState : Obligations.HashFromAnyState := by
  intro s m data hlen
  obtain ⟨t, d, ht, hd, hrsp, -⟩ := (inv_init m s).execAll_updates_digest rfl data (by simpa using hlen)
  exact ⟨t, d, (execAll_cons (exec_init_size m s) _).trans ht, hd, hrsp⟩

/-- PHASE after a command (R157): the rows of the transition table for the four commands. -/
def phaseAfter (s : State) : Instr → Phase
  | .init ds => if ds = 256 ∨ ds = 512 then .accumulating else s.phase
  | .update _ => if s.fault = .none ∧ ¬ (s.buflen = 63 ∧ s.n = BitVec.ofNat 512 (2 ^ 64 - 512)) then .accumulating
      else s.phase
  | .digest => if s.fault = .none then .done else s.phase
  | .hexdigest => if s.fault = .none then .done else s.phase

/-- A refused command leaves PHASE. -/
theorem phaseAfter_of_faulted {i : Instr} (hi : ∀ ds, i ≠ .init ds) {s : State} (hf : s.fault ≠ .none) :
    phaseAfter s i = s.phase := by
  cases i with
  | init ds => exact absurd rfl (hi ds)
  | update v => exact if_neg fun h => hf h.1
  | digest => exact if_neg hf
  | hexdigest => exact if_neg hf

/-- Every command leaves PHASE as its row of the table says. -/
theorem exec_phase (i : Instr) (s : State) : ∃ t, exec i s = .next t ∧ t.phase = phaseAfter s i := by
  obtain ⟨ds, m, rfl, hm, he⟩ | ⟨ds, rfl, hm, he⟩ | ⟨hi, hf, he⟩ | ⟨v, rfl, hf, hl, he⟩ | ⟨v, rfl, hf, hl, he⟩ |
    ⟨rfl, hf, he⟩ | ⟨rfl, hf, he⟩ := exec_cases i s
  all_goals refine ⟨_, he, Eq.symm ?_⟩
  · have hsize : ds = 256 ∨ ds = 512 := by
      rw [modeOfSize_eq_some.mp hm]
      cases m with
      | d512 => exact .inr rfl
      | d256 => exact .inl rfl
    exact if_pos hsize
  · exact if_neg (not_or.mpr (modeOfSize_eq_none.mp hm))
  · exact phaseAfter_of_faulted hi hf
  · exact if_neg fun h => h.2 (lengthAtLimit_eq_true_iff.mp hl)
  · exact if_pos ⟨hf, fun h => Bool.false_ne_true (hl.symm.trans (lengthAtLimit_eq_true_iff.mpr h))⟩
  · exact if_pos hf
  · exact if_pos hf

/-- Settles O48: a step that accepts no command resets PHASE or leaves it, and an accepted one follows its row. -/
theorem phaseFollowsTheTransitionTable : Obligations.PhaseFollowsTheTransitionTable := by
  intro s
  cases he : portEvent s with
  | idle => simp only [step, he]; exact ⟨_, rfl, rfl⟩
  | reset => simp only [step, he]; exact ⟨_, rfl, rfl⟩
  | taken => simp only [step, he]; exact ⟨_, rfl, rfl⟩
  | nothing => simp only [step, he]; exact ⟨_, rfl, rfl⟩
  | accepted w =>
    cases hd : decode w with
    | error e => exact ⟨_, (step_of_accepted he).trans (runWord_of_error hd _), by simp [hd]⟩
    | ok i =>
      obtain ⟨t, ht, hphase⟩ := exec_phase i (nextInput s)
      refine ⟨t, (step_of_accepted he).trans ((runWord_of_ok hd _).trans ht), ?_⟩
      simp only [hd]
      cases i <;> exact hphase

end Sys2Proof.Machine
end

section
/-! Faults (R182 to R187). A faulted engine answers everything but a legal INIT and reset with `refuse`, which writes
the response port only: a cause raised while a fault stands is no different from a refusal. -/

namespace Sys2Proof.Machine

/-- A word that is no command's is illegal (R77). -/
theorem exists_decode_eq_error_of_ne_encode {w : CmdWord} (h : ∀ i, w ≠ encode i) : ∃ e, decode w = .error e :=
  exists_decode_eq_error_iff.mpr fun ⟨i, hi⟩ => h i (eq_encode_of_decode hi)

/-- Settles O6: the port event is the acceptance of the word, which decodes to no command and raises IllegalCommand. -/
theorem acceptedIllegalWordFaults : Obligations.AcceptedIllegalWordFaults := by
  intro s p rest hin hrst hrsp hvalid hillegal
  obtain ⟨e, he⟩ := exists_decode_eq_error_of_ne_encode hillegal
  rw [step_of_accepted (portEvent_of_cmdValid hin hrst hrsp hvalid), runWord_of_error he, raise_illegalCommand,
    nextInput_of_inputs hin]

/-- A step at a reset event resets the engine (R200, R204). -/
theorem step_of_reset {s : State} (h : portEvent s = .reset) : step s = .next (resetEvent (nextInput s)) := by
  simp only [step, h]

section
variable {s : State} (hf : s.fault ≠ .none)
include hf

/-- A cause raised while a fault stands is answered like a refusal, since FAULT keeps the first cause (R184, R186). -/
theorem raise_of_faulted (c : FaultCode) : raise c s = refuse s := by
  rw [raise, latch_of_ne hf]
  rfl

/-- An INIT of no mode's size changes no register of a faulted engine (R181, R184). -/
theorem exec_init_of_faulted {ds : BitVec 16} (hds : modeOfSize ds = none) : exec (.init ds) s = .next (refuse s) :=
  (execInit_of_none hds s).trans (congrArg _ (raise_of_faulted hf _))

/-- Every command but a legal INIT is answered like a refusal while a fault stands (R184, R185). -/
theorem exec_of_faulted_of_ne_init_size {i : Instr} (hi : ∀ m : DigestMode, i ≠ .init (BitVec.ofNat 16 m.size)) :
    exec i s = .next (refuse s) := by
  by_cases hinit : ∃ ds, i = .init ds
  · obtain ⟨ds, rfl⟩ := hinit
    cases hm : modeOfSize ds with
    | some m => exact absurd (congrArg Instr.init (modeOfSize_eq_some.mp hm)) (hi m)
    | none => exact exec_init_of_faulted hf hm
  · exact exec_of_faulted (not_exists.mp hinit) hf

/-- An illegal word changes no register of a faulted engine (R182, R184). -/
theorem runWord_illegal_of_faulted {w : CmdWord} {e : IllegalWord} (hw : decode w = .error e) :
    runWord w s = .next (refuse s) :=
  (runWord_of_error hw s).trans (congrArg _ (raise_of_faulted hf _))

/-- Every word but that of a legal INIT is answered like a refusal while a fault stands (R184, R187). -/
theorem runWord_of_faulted {w : CmdWord}
    (hw : ∀ m : DigestMode, w ≠ encode (.init (BitVec.ofNat 16 m.size))) : runWord w s = .next (refuse s) := by
  cases hd : decode w with
  | error e => exact runWord_illegal_of_faulted hf hd
  | ok i =>
    rw [runWord_of_ok hd]
    exact exec_of_faulted_of_ne_init_size hf fun m hi => hw m (hi ▸ eq_encode_of_decode hd)

end

/-- Settles O45: reset and a legal INIT write FAULT, and of the other steps an accepted word is answered like a refusal
while the rest touch the ports only. -/
theorem faultIsClearedByInitAndResetOnly : Obligations.FaultIsClearedByInitAndResetOnly := by
  refine ⟨fun s t he h => ?_, fun s t m he h => ?_, fun s t hf h hreset hinit => ?_⟩
  · obtain rfl := Host.Outcome.next.inj (h.symm.trans (step_of_reset he))
    rfl
  · rw [step_of_accepted he, runWord_of_ok (decode_encode _), exec_init_size] at h
    obtain rfl := Host.Outcome.next.inj h
    rfl
  · obtain ⟨-, rfl⟩ | ⟨he, -⟩ | ⟨-, rfl⟩ | ⟨w, he, ht⟩ | ⟨-, rfl⟩ := step_cases h
    · rfl
    · exact absurd he hreset
    · rfl
    · have hrefused : runWord w (nextInput s) = .next (refuse (nextInput s)) :=
        runWord_of_faulted (s := nextInput s) hf fun m hw => hinit m (hw ▸ he)
      obtain rfl := Host.Outcome.next.inj (ht.symm.trans hrefused)
      rfl
    · rfl

/-- Settles O16: the limit clause of UPDATE leaves LengthOverflow in FAULT, after which a digest request is refused with
the response that already stands; before it the digest completes. -/
theorem updateAtTheLengthLimitFaults : Obligations.UpdateAtTheLengthLimitFaults := by
  intro s v hf h63 hn
  obtain ⟨-, -, -, hlimit, -⟩ := updateAppendsItsByte
  exact ⟨_, hlimit s v hf h63 hn, rfl, execDigest_of_faulted (by simp), execHexdigest_of_faulted (by simp),
    _, digestBytes s, execDigest_of_ok hf, hf, rfl⟩

/-- Settles O17: each refused command and word is answered by `refuse`; INIT of a mode's size and reset write FAULT. -/
theorem faultedEngineRefuses : Obligations.FaultedEngineRefuses := by
  intro s hf
  refine ⟨fun v => execUpdate_of_faulted v hf, execDigest_of_faulted hf, execHexdigest_of_faulted hf,
    fun ds h256 h512 => exec_init_of_faulted hf (modeOfSize_eq_none.mpr ⟨h256, h512⟩),
    fun w e hw => runWord_illegal_of_faulted hf hw, fun ds hds => ?_, rfl⟩
  obtain rfl | rfl := hds
  · exact ⟨_, exec_init_size .d256 s, rfl⟩
  · exact ⟨_, exec_init_size .d512 s, rfl⟩

end Sys2Proof.Machine
end

section
/-! Reset and the steps' totality (R200 to R206). -/

namespace Sys2Proof.Machine

/-- `rst` brings the reset event, whatever else the pins drive and the state holds (R200, R204). -/
theorem portEvent_of_rst {s : State} {p : Pins} {rest : List Pins} (h : s.inputs = p :: rest) (hrst : p.rst = true) :
    portEvent s = .reset := by
  simp [portEvent, pinsEvent, h, hrst]

/-- Settles O7: the port event is the reset, and each register of the next state is the one that `resetEvent` writes. -/
theorem resetEventWritesEveryRegister : Obligations.ResetEventWritesEveryRegister := by
  intro s p rest hin hrst
  have hstep : step s = .next (resetEvent { s with inputs := rest }) := by
    rw [step_of_reset (portEvent_of_rst hin hrst), nextInput_of_inputs hin]
  exact ⟨_, hstep, rfl, rfl, rfl, rfl, rfl, rfl, rfl, rfl, rfl, rfl, rfl⟩

/-- Settles O11: an accepted word answers a next state, and at every other port event `step` gives it outright. -/
theorem stepNeverStops : Obligations.StepNeverStops := by
  intro s
  cases he : portEvent s with
  | accepted w =>
    obtain ⟨t, -, ht, -⟩ := runWord_answers w (nextInput s)
    exact ⟨t, (step_of_accepted he).trans ht⟩
  | reset => exact ⟨_, step_of_reset he⟩
  | idle => simp [step, he]
  | taken => simp [step, he]
  | nothing => simp [step, he]

/-- Settles O22: INIT 512 leaves the empty message of the 512-bit mode, whose initial value is the `H` of reset. -/
theorem resetAndInit512Agree : Obligations.ResetAndInit512Agree := by
  intro s
  have hiv : iv .d512 = (resetEvent s).h := rfl
  exact ⟨_, exec_init_size .d512 s, hiv, rfl, rfl, rfl, rfl, rfl, rfl, rfl, rfl, rfl⟩

end Sys2Proof.Machine
end

section
/-! The finalisation on copies of the registers (R154, R155). -/

namespace Sys2Proof.Machine

/-- `Final` with the values of its three applications of g named (R155). -/
theorem final_eq {h pd h1 h2 : Block} {n : Word64} {t : List Byte} (s : Block) (hpd : pd = padBlock t)
    (hh1 : h1 = compressG n h pd) (hh2 : h2 = compressG 0 h1 (lenBlock (addBits n (8 * t.length)))) :
    final h n s t = compressG 0 h2 (add512 s pd) := by
  subst hpd hh1 hh2
  rfl

/-- The count that the finalisation writes into its length block: N[63:0] and the bits of the tail (R154, R155). -/
theorem addBits_stepValue_tail (s : State) :
    addBits (stepValue s) (8 * (tail s).length) = s.n.extractLsb' 0 64 + BitVec.ofNat 64 (8 * s.buflen.val) := by
  rw [addBits, length_tail, stepValue]

/-- A completed DIGEST writes PHASE and answers with the digest of the state (R32, R154). -/
theorem exec_digest_of_digestBytes {s : State} {d : List Byte} (hf : s.fault = .none) (hd : digestBytes s = d) :
    exec .digest s = .next { s with phase := .done, rsp := some ⟨0, d⟩ } := by
  subst hd
  exact execDigest_of_ok hf

/-- Settles O18: a completed DIGEST answers with `digestBytes`, which is `Final` of H, N[63:0], SIGMA and the tail, cut by
mode; while a fault stands it is refused. -/
theorem digestAnswersTheFinalisedValue : Obligations.DigestAnswersTheFinalisedValue := by
  refine ⟨rfl, fun _ hf => execDigest_of_faulted hf, fun s pd h1 h2 h3 hf hpd hh1 hh2 hh3 => ?_⟩
  rw [← addBits_stepValue_tail] at hh2
  have hfinal : final s.h (stepValue s) s.sigma (tail s) = h3 := (final_eq s.sigma hpd hh1 hh2).trans hh3.symm
  refine exec_digest_of_digestBytes hf ?_
  rw [digestBytes, hfinal]
  cases s.ds <;> rfl

end Sys2Proof.Machine
end
